-- ==== Sys2Proof/Word.lean ====
section
/-! DEFINITION. The plain types of the block: levels, words, the four channels, one value per channel, line identifiers. -/

namespace Sys2Proof

/-- A line level: `false` is 0 (low), `true` is 1 (high) (00_scope.md R13). -/
abbrev Level := Bool

/-- An op word, OPW, 8 bits (30_encoding.md R103). -/
abbrev OpWord := BitVec 8

/-- A 24-bit word: `u24` when read unsigned, `s24` when read two's complement (R13). -/
abbrev Word24 := BitVec 24

/-- A 32-bit word: `s32` when read two's complement (R13). -/
abbrev Word32 := BitVec 32

/-- The four channels, identifiers 1 to 4 (00_scope.md R9, 30_encoding.md R97). -/
inductive Chan where
  | c1 | c2 | c3 | c4
  deriving DecidableEq, Repr, Inhabited

/-- One value per channel: the spec's `X[1..4]`. -/
structure PerCh (α : Type) where
  c1 : α
  c2 : α
  c3 : α
  c4 : α
  deriving DecidableEq, Repr, Inhabited

/-- A line identifier, or `none` for the spec's `NONE` (10_state.md R40). -/
abbrev LineId := Option Nat

end Sys2Proof
end

