-- ==== Sys2Proof/Config.lean ====
section
/-! DEFINITION. What is fixed for the block, INIT's operand record, and the free values: the `opaque` constants below
have no body, so no proof can see their values. -/

namespace Sys2Proof

/-- The operand record of `INIT(cfg)` (43_scheduler.md R186). `extra` is a natural number here because an offered
record may hold a count outside 0..3 (R106, R187); the register it goes to has two bits. -/
structure CfgRecord where
  clkLine    : LineId
  dataLine   : PerCh LineId
  extra      : PerCh Nat
  maxPolls   : PerCh Nat
  threshold  : Word32
  tickPeriod : Nat
  deriving DecidableEq, Repr, Inhabited

/-- The configuration registers under the names of 10_state.md R40 to R45. -/
inductive CfgReg where
  | clkLine
  | dataLine (c : Chan)
  | extra (c : Chan)
  | maxPolls (c : Chan)
  | threshold
  | tickPeriod
  deriving DecidableEq, Repr

namespace Config

/-- `FUSION_PRESENT`, a build-time parameter: 0 for this hardware (00_scope.md R8, 10_state.md R46). -/
def fusionPresent : Bool := false

/-- `N_DATA_PULSES` (00_scope.md R9). -/
def nDataPulses : Nat := 24

/-- FREE VALUE. The level the amplifier of channel `c` shows at its read number `n`, when the state's list of coming
levels has run out (93_implementation_defined.md U1). -/
opaque freeLevel : Chan → Nat → Level

/-- FREE VALUE. The record the configuration loader hands over when the state names none (60_exceptions.md R232). -/
opaque freeOffer : CfgRecord

/-- FREE VALUE. `EXTRA[CH]` for a `CH` outside 1..4, which the spec gives no meaning (20_memory.md R67). -/
opaque freeExtra : BitVec 3 → BitVec 2

/-- OPEN. The platform's line count `N_LINES`; no rule of behaviour reads it (D24). -/
opaque nLines : Nat

/-- OPEN. The time between two polls, `T_POLL`; no rule of behaviour reads it (00_scope.md R12). -/
opaque tPoll : Nat

/-- OPEN. The ready-wait bound `T_TIMEOUT[c]`; no rule of behaviour reads it (00_scope.md R12). -/
opaque tTimeout : Chan → Nat

/-- OPEN. The width `W_AMB` of the override pulse; the model has no time and the end of the pulse is a move of its
own (42_channel_state.md R178). -/
opaque wAmb : Nat

/-- The two inputs of the amplifier that the label table of 30_encoding.md R96 names. -/
inductive AmpInput where
  | a | b
  deriving DecidableEq, Repr

/-- The label of a pulse count: the input and the gain it selects (30_encoding.md R96, general knowledge GK1).
PRESUMED; no rule of behaviour reads it. -/
def gainLabel : BitVec 2 → Option (AmpInput × Nat)
  | 1 => some (.a, 128)
  | 2 => some (.b, 32)
  | 3 => some (.a, 64)
  | _ => none

end Config

/-- The position of a channel in a bank of four registers. -/
def Chan.offset : Chan → Nat
  | .c1 => 0
  | .c2 => 1
  | .c3 => 2
  | .c4 => 3

/-- The register numbers of 10_state.md R47, which no rule depends on. -/
def CfgReg.number : CfgReg → Nat
  | .clkLine => 0
  | .dataLine c => 1 + c.offset
  | .extra c => 5 + c.offset
  | .maxPolls c => 9 + c.offset
  | .threshold => 13
  | .tickPeriod => 14

end Sys2Proof
end

