-- ==== Sys2Proof/Syntax.lean ====
section
/-! DEFINITION. The operations of the block: one constructor per row of spec/opcode_table.json (30_encoding.md R104). -/

namespace Sys2Proof

/-- The agents that perform operations (00_scope.md R16, the agent column of 30_encoding.md R104). -/
inductive Agent where
  | worker
  | statusReader
  | configLoader
  | tickSource
  | shutdownRequester
  | ambientSource
  deriving DecidableEq, Repr

/-- An operation. A channel operation carries its channel. -/
inductive Instr where
  | susp
  | clkl
  | wrdy (c : Chan)
  | shb (c : Chan)
  | gpl
  | conv
  | dec (c : Chan)
  | upd (c : Chan)
  | gate (c : Chan)
  | next
  | rdl (c : Chan)
  | init
  | tick
  | stop
  | amb
  deriving DecidableEq, Repr

/-- Who performs the operation (30_encoding.md R104). -/
def Instr.agent : Instr → Agent
  | .susp => .worker
  | .clkl => .worker
  | .wrdy _ => .worker
  | .shb _ => .worker
  | .gpl => .worker
  | .conv => .worker
  | .dec _ => .worker
  | .upd _ => .worker
  | .gate _ => .worker
  | .next => .worker
  | .rdl _ => .statusReader
  | .init => .configLoader
  | .tick => .tickSource
  | .stop => .shutdownRequester
  | .amb => .ambientSource

end Sys2Proof
end

