-- ==== Sys2Proof/WellFormed.lean ====
section
/-! DEFINITION. Which operations exist in a block with a given `FUSION_PRESENT`. -/

namespace Sys2Proof

/-- `AMB` exists only when `FUSION_PRESENT = 1` (30_encoding.md R105, 42_channel_state.md R178). A channel outside
1..4 (R97) cannot be written as a term, since `Chan` has four values; the decoder rejects its op word. -/
def WellFormed (fusion : Bool) : Instr → Bool
  | .susp => true
  | .clkl => true
  | .wrdy _ => true
  | .shb _ => true
  | .gpl => true
  | .conv => true
  | .dec _ => true
  | .upd _ => true
  | .gate _ => true
  | .next => true
  | .rdl _ => true
  | .init => true
  | .tick => true
  | .stop => true
  | .amb => fusion

end Sys2Proof
end

