-- ==== Sys2Proof/Decode.lean ====
section
/-! DEFINITION. The op word: a decoder that is total on bytes and rejects by name, then the encoder
(30_encoding.md R97, R103 to R105). -/

namespace Sys2Proof

/-- Why an op word is illegal (30_encoding.md R105). -/
inductive Reject where
  /-- `OPC = 0xF`. -/
  | reservedOpcode
  /-- Bit 3 is set. -/
  | reservedBitSet
  /-- `CHF` in 5..7 in a channel operation. -/
  | channelReserved
  /-- `CHF = 0` in a channel operation. -/
  | channelMissing
  /-- `CHF` not 0 in an operation that takes no channel. -/
  | channelUnexpected
  /-- `OPC = 0xE` while `FUSION_PRESENT = 0`. -/
  | fusionAbsent
  deriving DecidableEq, Repr

/-- Bits 7:4, `OPC` (R103). -/
def opcOf (w : OpWord) : BitVec 4 := w.extractLsb' 4 4

/-- Bit 3, reserved, must be 0 (R103). -/
def reservedBitOf (w : OpWord) : Bool := w.getLsbD 3

/-- Bits 2:0, `CHF` (R103). -/
def chfOf (w : OpWord) : BitVec 3 := w.extractLsb' 0 3

/-- The channel a `CHF` value names (R97). -/
def channelOf (f : BitVec 3) : Except Reject Chan :=
  match f.toNat with
  | 0 => .error .channelMissing
  | 1 => .ok .c1
  | 2 => .ok .c2
  | 3 => .ok .c3
  | 4 => .ok .c4
  | _ => .error .channelReserved

/-- An operation without a channel: `CHF` must be 0 (R103, R105). -/
def plainOp (i : Instr) (f : BitVec 3) : Except Reject Instr :=
  if f = 0 then .ok i else .error .channelUnexpected

/-- An operation with a channel: `CHF` must be 1..4 (R103, R105). -/
def channelOp (k : Chan → Instr) (f : BitVec 3) : Except Reject Instr :=
  match channelOf f with
  | .ok c => .ok (k c)
  | .error r => .error r

/-- The decoder of a block with the given `FUSION_PRESENT` (R104, R105). -/
def decode (fusion : Bool) (w : OpWord) : Except Reject Instr :=
  if reservedBitOf w then .error .reservedBitSet
  else
    match (opcOf w).toNat with
    | 0 => plainOp .susp (chfOf w)
    | 1 => plainOp .clkl (chfOf w)
    | 2 => channelOp .wrdy (chfOf w)
    | 3 => channelOp .shb (chfOf w)
    | 4 => plainOp .gpl (chfOf w)
    | 5 => plainOp .conv (chfOf w)
    | 6 => channelOp .dec (chfOf w)
    | 7 => channelOp .upd (chfOf w)
    | 8 => channelOp .gate (chfOf w)
    | 9 => plainOp .next (chfOf w)
    | 10 => channelOp .rdl (chfOf w)
    | 11 => plainOp .init (chfOf w)
    | 12 => plainOp .tick (chfOf w)
    | 13 => plainOp .stop (chfOf w)
    | 14 => if fusion then plainOp .amb (chfOf w) else .error .fusionAbsent
    | _ => .error .reservedOpcode

/-- A trace written as bytes, one op word an operation (R103, R107). -/
def decodeTrace (fusion : Bool) : List OpWord → Except Reject (List Instr)
  | [] => .ok []
  | w :: ws =>
    match decode fusion w with
    | .error r => .error r
    | .ok i =>
      match decodeTrace fusion ws with
      | .error r => .error r
      | .ok is => .ok (i :: is)

/-- The `CHF` value of a channel (R97). -/
def Chan.code : Chan → BitVec 3
  | .c1 => 1
  | .c2 => 2
  | .c3 => 3
  | .c4 => 4

/-- `OPC` in bits 7:4, bit 3 zero, `CHF` in bits 2:0 (R103). -/
def opWordOf (opc : BitVec 4) (chf : BitVec 3) : OpWord := opc ++ 0#1 ++ chf

/-- The op word of an operation (the table of R104). -/
def encode : Instr → OpWord
  | .susp => opWordOf 0x0 0
  | .clkl => opWordOf 0x1 0
  | .wrdy c => opWordOf 0x2 c.code
  | .shb c => opWordOf 0x3 c.code
  | .gpl => opWordOf 0x4 0
  | .conv => opWordOf 0x5 0
  | .dec c => opWordOf 0x6 c.code
  | .upd c => opWordOf 0x7 c.code
  | .gate c => opWordOf 0x8 c.code
  | .next => opWordOf 0x9 0
  | .rdl c => opWordOf 0xA c.code
  | .init => opWordOf 0xB 0
  | .tick => opWordOf 0xC 0
  | .stop => opWordOf 0xD 0
  | .amb => opWordOf 0xE 0

/-- The bytes of a list of operations. -/
def encodeTrace (is : List Instr) : List OpWord := is.map encode

/-- The table's view of the decoder: every operation is one 8-bit word (R107), decoded for this hardware's
`FUSION_PRESENT`. -/
def decodeTableWord (nbits w : Nat) : Option Instr :=
  if nbits ≤ 8 ∧ w < 2 ^ 8 then
    match decode Config.fusionPresent (BitVec.ofNat 8 w) with
    | .ok i => some i
    | .error _ => none
  else none

end Sys2Proof
end

