-- ==== Sys2Proof/Machine/State.lean ====
section
/-! DEFINITION. The state of the block (10_state.md R20), the environment's side of its boundaries and the record of
what happened, all plain data; the faults and refusals; the state after reset (R51). -/

namespace Sys2Proof.Machine

/-- `SCHED` (10_state.md R28). -/
inductive SchedState where
  | idle | running
  deriving DecidableEq, Repr

/-- `PHASE`, the operation the worker performs next (10_state.md R30). -/
inductive Phase where
  | susp | clkl | wrdy | shb | gpl | conv | dec | upd | gate | next
  deriving DecidableEq, Repr

/-- One entry of the ChannelState bank (10_state.md R21 to R23, 20_memory.md R60). -/
structure Entry where
  /-- `PREV[c]`, signed. -/
  prev    : Word24
  /-- `LAST_TO[c]`. -/
  lastTo  : Bool
  /-- `LAST_VAL[c]`, signed; no meaning while `LAST_TO[c] = 1`. -/
  lastVal : Word24
  /-- `STEP[c]`. -/
  step    : Bool
  deriving DecidableEq, Repr

/-- The configuration registers (10_state.md R40 to R45). -/
structure CfgRegs where
  clkLine    : LineId
  dataLine   : PerCh LineId
  extra      : PerCh (BitVec 2)
  maxPolls   : PerCh Nat
  threshold  : Word32
  tickPeriod : Nat
  deriving DecidableEq, Repr

/-- A RawSample (10_state.md R37; the sum type of 30_encoding.md R98). -/
inductive RawSample where
  | value (v : Word24)
  | timeout
  deriving DecidableEq, Repr

/-- The answer of `RDL c` (30_encoding.md R100). -/
structure Status where
  weight       : Word32
  stepAsserted : Bool
  isTimeout    : Bool
  deriving DecidableEq, Repr

/-- The conditions and their closed enumeration (60_exceptions.md R215). -/
inductive Condition where
  | none
  | deviceNotReady (c : Chan)
  | configurationError
  | protocolTimingViolation
  deriving DecidableEq, Repr

/-- What the model records: line events and actuation events (00_scope.md R14, D26), the answers at the status and
configuration boundaries (60_exceptions.md R232), the conditions raised (R215). Nothing in the block reads them. -/
inductive Event where
  /-- `W(l, v)`. -/
  | lineWrite (l : LineId) (v : Level)
  /-- `R(l) = b`. -/
  | lineRead (l : LineId) (b : Level)
  /-- `SetGate(c, v)`. -/
  | setGate (c : Chan) (v : Level)
  /-- What `RDL c` returned. -/
  | answer (c : Chan) (r : Status)
  /-- What `INIT` returned: `true` for ok, `false` for failure. -/
  | initResult (ok : Bool)
  /-- A condition was raised. -/
  | raised (k : Condition)
  deriving DecidableEq, Repr

/-- The amplifier environment of one channel, as its data line shows it: the levels its coming reads return, first
first, and the number of reads done so far. When the list has run out, each read is a free draw (10_state.md R26,
93_implementation_defined.md U1). -/
structure Amp where
  levels : List Level
  draws  : Nat
  deriving DecidableEq, Repr

/-- One entry of the agenda, which says who moves next (20_memory.md R72). -/
inductive Move where
  /-- The worker performs the operation of its phase. -/
  | worker
  /-- An agent outside the block performs the operation of this op word. -/
  | outside (w : OpWord)
  /-- The override pulse reaches its width `W_AMB` (42_channel_state.md R178). -/
  | pulseEnd
  deriving DecidableEq, Repr

/-- The state. The first block of fields is the spec's (10_state.md R20), `ovr` is R178's; the last block is the
model's own: the environment's inputs and the record of events. -/
structure State where
  /-- The ChannelState bank. -/
  bank : PerCh Entry
  /-- `GATE[c]`, output pins (R27). -/
  gate : PerCh Level
  /-- `SCK`, output pin (R25). -/
  sck : Level
  /-- `SCHED` (R28). -/
  sched : SchedState
  /-- `CH`, 3 bits (R29). -/
  ch : BitVec 3
  /-- `PHASE` (R30). -/
  phase : Phase
  /-- `ACC` (R32). -/
  acc : Word24
  /-- `BITCNT`, 5 bits (R33). -/
  bitCnt : BitVec 5
  /-- `GCNT`, 2 bits (R34). -/
  gCnt : BitVec 2
  /-- `POLLCNT` (R35). -/
  pollCnt : Nat
  /-- `RDY` (R36). -/
  rdy : Bool
  /-- `SMP_TO` (R37). -/
  smpTo : Bool
  /-- `SMP_VAL`, signed (R37); no meaning while `SMP_TO = 1`. -/
  smpVal : Word24
  /-- `NP`, signed (R38). -/
  np : Word24
  /-- `NS` (R38). -/
  ns : Bool
  /-- `INITED` (R39). -/
  inited : Bool
  /-- `CFG_ERR` (R39). -/
  cfgErr : Bool
  /-- `STOP_REQ` (R39). -/
  stopReq : Bool
  /-- `STOPPED` (R39). -/
  stopped : Bool
  /-- The configuration registers (R40 to R45). -/
  cfg : CfgRegs
  /-- `FUSION_PRESENT` (R46): a build-time parameter no operation writes. -/
  fusionPresent : Bool
  /-- `OVR` (42_channel_state.md R178): written only when `FUSION_PRESENT = 1`. -/
  ovr : Bool
  /-- MODEL'S OWN. The four amplifier environments: what the data lines `DIN[c]` will show (R26). -/
  amps : PerCh Amp
  /-- MODEL'S OWN. The record the configuration loader hands to `INIT`; `none`: a free record. -/
  offer : Option CfgRecord
  /-- MODEL'S OWN. Who moves next; an empty agenda leaves the move to the worker. -/
  agenda : List Move
  /-- MODEL'S OWN. What happened, oldest first. -/
  trace : List Event
  deriving DecidableEq, Repr

/-- The faults. THERE IS NONE: no operation of the block stops the machine with a fault. DeviceNotReady is data and
ConfigurationError is the sticky flag `CFG_ERR`, both next states (60_exceptions.md R216, R217, R222);
ProtocolTimingViolation is never raised (R218). -/
inductive Fault where
  deriving DecidableEq, Repr

/-- The refusals. -/
inductive Refusal where
  /-- Raised by `exec` for an operation that has no meaning yet; no arm does. Safe. -/
  | notModelled (mnemonic : String)
  /-- Raised by `step`: the op word is illegal, "which a decoder must reject and a model must refuse"
  (30_encoding.md R105, U13, and U6 for `RDL` with a channel outside 1..4). Safe. -/
  | illegalOpWord (w : OpWord) (r : Reject)
  /-- Raised by `step`: an agent outside the block asks for an operation of the worker, a move no outside agent has
  (60_exceptions.md R230, R231). Safe. -/
  | notAnOutsideOperation (w : OpWord)
  /-- Raised by `execInit` outside INIT's precondition: "a model refuses it" (43_scheduler.md R188, U7). Safe. -/
  | initOutsidePrecondition
  /-- Raised by `execAmb` while `FUSION_PRESENT = 0`: the operation does not exist (42_channel_state.md R178,
  30_encoding.md R105). Safe. -/
  | fusionAbsent
  deriving DecidableEq, Repr

/-- An entry at reset (10_state.md R51): `LAST_VAL` is the model's DESIGN CHOICE (log 2). -/
def Entry.reset : Entry := { prev := 0, lastTo := true, lastVal := 0, step := false }

/-- The configuration registers at reset (10_state.md R51): `MAX_POLLS`, `THRESHOLD` and `TICK_PERIOD` are the model's
DESIGN CHOICE (log 2). -/
def CfgRegs.reset : CfgRegs :=
  { clkLine := none
    dataLine := ⟨none, none, none, none⟩
    extra := ⟨1, 1, 1, 1⟩
    maxPolls := ⟨0, 0, 0, 0⟩
    threshold := 0
    tickPeriod := 0 }

/-- The state after reset (10_state.md R51, 70_reset_and_hazards.md R250). `ACC`, `SMP_VAL`, `NP`, `NS` and the
model's own fields are DESIGN CHOICE (log 2, log 3). -/
def State.reset : State :=
  { bank := ⟨Entry.reset, Entry.reset, Entry.reset, Entry.reset⟩
    gate := ⟨false, false, false, false⟩
    sck := false
    sched := .idle
    ch := 0
    phase := .susp
    acc := 0
    bitCnt := 0
    gCnt := 0
    pollCnt := 0
    rdy := false
    smpTo := true
    smpVal := 0
    np := 0
    ns := false
    inited := false
    cfgErr := false
    stopReq := false
    stopped := false
    cfg := CfgRegs.reset
    fusionPresent := Config.fusionPresent
    ovr := false
    amps := ⟨⟨[], 0⟩, ⟨[], 0⟩, ⟨[], 0⟩, ⟨[], 0⟩⟩
    offer := none
    agenda := []
    trace := [] }

end Sys2Proof.Machine
end

