-- ==== Sys2Proof/Machine/Ops.lean ====
section
/-! DEFINITION. The named operations over the bank, the lines and the record of events, and the one operation that
takes a condition (00_scope.md R14, 20_memory.md R62 to R64, 60_exceptions.md R215 to R223). -/

namespace Sys2Proof

/-- `X[c]`. -/
def PerCh.get {α : Type} (v : PerCh α) : Chan → α
  | .c1 => v.c1
  | .c2 => v.c2
  | .c3 => v.c3
  | .c4 => v.c4

/-- `X[c] <- x`. -/
def PerCh.set {α : Type} (v : PerCh α) (c : Chan) (x : α) : PerCh α :=
  match c with
  | .c1 => { v with c1 := x }
  | .c2 => { v with c2 := x }
  | .c3 => { v with c3 := x }
  | .c4 => { v with c4 := x }

/-- The four values, channel 1 first. -/
def PerCh.toList {α : Type} (v : PerCh α) : List α := [v.c1, v.c2, v.c3, v.c4]

/-- The function applied to each of the four values. -/
def PerCh.map {α β : Type} (f : α → β) (v : PerCh α) : PerCh β := ⟨f v.c1, f v.c2, f v.c3, f v.c4⟩

namespace Machine

/-- Appends an event to the record (00_scope.md R14). -/
def record (e : Event) (s : State) : State := { s with trace := s.trace ++ [e] }

/-- `LineWrite(l, v)`: records `W(l, v)`; for `l = CLK_LINE` it also sets `SCK` (20_memory.md R64). -/
def lineWrite (l : LineId) (v : Level) (s : State) : State :=
  { s with
    sck := if l = s.cfg.clkLine then v else s.sck
    trace := s.trace ++ [.lineWrite l v] }

/-- The level the next read of the data line returns: the environment's next level, or a free draw (U1). -/
def Amp.level (c : Chan) (a : Amp) : Level :=
  match a.levels with
  | b :: _ => b
  | [] => Config.freeLevel c a.draws

/-- The amplifier environment after one read. -/
def Amp.advance (a : Amp) : Amp := { levels := a.levels.tail, draws := a.draws + 1 }

/-- The amplifier environment after `n` reads. -/
def Amp.after (a : Amp) : Nat → Amp
  | 0 => a
  | n + 1 => (a.after n).advance

/-- The level read number `n` from now returns, counting from 0. -/
def Amp.nth (c : Chan) (a : Amp) (n : Nat) : Level := (a.after n).level c

/-- The level `LineRead(DATA_LINE[c])` returns at this moment. -/
def dataLevel (c : Chan) (s : State) : Level := (s.amps.get c).level c

/-- What `LineRead(DATA_LINE[c])` leaves: the event `R(DATA_LINE[c]) = b` is recorded, the environment has shown that
level, nothing of the block changes (20_memory.md R64, R69). -/
def afterRead (c : Chan) (s : State) : State :=
  { s with
    amps := s.amps.set c (s.amps.get c).advance
    trace := s.trace ++ [.lineRead (s.cfg.dataLine.get c) (dataLevel c s)] }

/-- One clock pulse: high, then low (40_adc_acquire.md R126, R129). -/
def pulse (s : State) : State := lineWrite s.cfg.clkLine false (lineWrite s.cfg.clkLine true s)

/-- `CsRead(c)` (20_memory.md R62). -/
def csRead (c : Chan) (s : State) : Entry := s.bank.get c

/-- `CsWrite(c, p, lt, lv, s)`, one indivisible step (20_memory.md R63). -/
def csWrite (c : Chan) (p : Word24) (lt : Bool) (lv : Word24) (st : Bool) (s : State) : State :=
  { s with bank := s.bank.set c { prev := p, lastTo := lt, lastVal := lv, step := st } }

/-- `Emit SetGate(c, v)` with the pin `GATE[c]` written (42_channel_state.md R172). -/
def setGate (c : Chan) (v : Level) (s : State) : State :=
  { s with
    gate := s.gate.set c v
    trace := s.trace ++ [.setGate c v] }

/-- The level on gate line `c`: `GATE[c] or OVR` (42_channel_state.md R178). -/
def gateLine (c : Chan) (s : State) : Level := s.gate.get c || s.ovr

/-- The cause code of a condition (60_exceptions.md R215). -/
def Condition.code : Condition → Nat
  | .none => 0
  | .deviceNotReady _ => 1
  | .configurationError => 2
  | .protocolTimingViolation => 3

/-- TAKING A CONDITION. No condition saves state, changes a mode or moves control to a vector: DeviceNotReady's whole
entry is `RDY <- 0`, `SMP_TO <- 1` and `PHASE <- DEC`; ConfigurationError's is `CFG_ERR <- 1`; for
ProtocolTimingViolation nothing is raised and nothing recorded (60_exceptions.md R215, R218, R222). There is no
return operation (R223). -/
def takeCondition (k : Condition) (s : State) : State :=
  match k with
  | .none => s
  | .deviceNotReady c =>
    { record (.raised (.deviceNotReady c)) s with rdy := false, smpTo := true, phase := .dec }
  | .configurationError => { record (.raised .configurationError) s with cfgErr := true }
  | .protocolTimingViolation => s

end Machine

end Sys2Proof
end

