-- ==== Sys2Proof/Machine/Operands.lean ====
section
/-! DEFINITION. Operand forms and formats: the conversion `CONV24`, sign extension, RAWSAMPLE, CHSTATE and STATUS, the
configuration value a channel selects, INIT's operand (30_encoding.md R94 to R102). -/

namespace Sys2Proof.Machine

/-- `CONV24`: the pattern `p = u xor 0x800000`, read as an `s24` (30_encoding.md R94, 40_adc_acquire.md R130). -/
def conv24 (u : Word24) : Word24 := u ^^^ 0x800000#24

/-- `((ACC << 1) | b)[23:0]` (30_encoding.md R93). -/
def shiftIn (acc : Word24) (b : Level) : Word24 := (acc <<< 1) ||| (BitVec.ofBool b).setWidth 24

/-- `sext_32` of an `s24` (30_encoding.md R101). -/
def sext32 (v : Word24) : Word32 := v.signExtend 32

/-- A RAWSAMPLE pair as the sum type; `VAL` is not read under `TO = 1` (30_encoding.md R98). -/
def rawSample (timedOut : Bool) (v : Word24) : RawSample := if timedOut then .timeout else .value v

/-- RAWSAMPLE packed: bit 24 `TO`, bits 23:0 `VAL` (30_encoding.md R98). -/
def packRaw (timedOut : Bool) (v : Word24) : BitVec 25 := BitVec.ofBool timedOut ++ v

/-- The sample the current acquisition returned, `(SMP_TO, SMP_VAL)` (10_state.md R37). -/
def sampleOf (s : State) : RawSample := rawSample s.smpTo s.smpVal

/-- The source's `last_sample` (10_state.md R22). -/
def Entry.lastSample (e : Entry) : RawSample := rawSample e.lastTo e.lastVal

/-- CHSTATE: bit 49 `STEP`, bit 48 `LAST_TO`, bits 47:24 `LAST_VAL`, bits 23:0 `PREV` (30_encoding.md R99). -/
def packEntry (e : Entry) : BitVec 50 :=
  BitVec.ofBool e.step ++ BitVec.ofBool e.lastTo ++ e.lastVal ++ e.prev

/-- The entry a CHSTATE word holds (30_encoding.md R99). -/
def unpackEntry (w : BitVec 50) : Entry :=
  { prev := w.extractLsb' 0 24, lastTo := w.getLsbD 48, lastVal := w.extractLsb' 24 24, step := w.getLsbD 49 }

/-- The answer of `RDL` for an entry (30_encoding.md R100, 42_channel_state.md R175). -/
def statusOf (e : Entry) : Status :=
  { weight := sext32 e.prev, stepAsserted := e.step, isTimeout := e.lastTo }

/-- STATUS packed: bit 33 `TIMEOUT`, bit 32 `STEP`, bits 31:0 `WEIGHT` (30_encoding.md R100). -/
def packStatus (r : Status) : BitVec 34 :=
  BitVec.ofBool r.isTimeout ++ BitVec.ofBool r.stepAsserted ++ r.weight

/-- `EXTRA[CH]`; a free value for a `CH` that names no channel (log 8). -/
def extraAt (s : State) : BitVec 2 :=
  match channelOf s.ch with
  | .ok c => s.cfg.extra.get c
  | .error _ => Config.freeExtra s.ch

/-- INIT's operand: what the loader hands over (43_scheduler.md R186; 60_exceptions.md R232: "supply any `cfg`"). -/
def offered (s : State) : CfgRecord := s.offer.getD Config.freeOffer

/-- The configuration registers written from a record (43_scheduler.md R186). -/
def regsOf (r : CfgRecord) : CfgRegs :=
  { clkLine := r.clkLine
    dataLine := r.dataLine
    extra := r.extra.map (BitVec.ofNat 2)
    maxPolls := r.maxPolls
    threshold := r.threshold
    tickPeriod := r.tickPeriod }

end Sys2Proof.Machine
end

