-- ==== Sys2Proof/Machine/Flags.lean ====
section
/-! DEFINITION. Every flag computation and every condition an operation tests (10_state.md R48). -/

namespace Sys2Proof.Machine

/-- `NS` on the Value path: `(w - THRESHOLD) > P` over the mathematical integers (41_step_detector.md R151, R152). -/
def stepFlag (w : Word24) (threshold : Word32) (p : Word24) : Bool :=
  decide (w.toInt - threshold.toInt > p.toInt)

/-- The five identifiers of a record: the clock's, then the data lines' (43_scheduler.md R187). -/
def lineIds (r : CfgRecord) : List LineId := r.clkLine :: r.dataLine.toList

/-- `CONFIG_OK(cfg)` (43_scheduler.md R187). -/
def configOk (r : CfgRecord) : Bool :=
  (lineIds r).all Option.isSome
    && decide (lineIds r).Nodup
    && r.extra.toList.all (fun n => decide (1 ≤ n) && decide (n ≤ 3))
    && r.maxPolls.toList.all (fun n => decide (1 ≤ n))
    && decide (0 < r.tickPeriod)

/-- INIT's precondition (43_scheduler.md R186). -/
def initAllowed (s : State) : Bool := decide (s.sched = .idle) && !s.inited && !s.cfgErr

/-- When a tick is accepted (43_scheduler.md R190). -/
def tickAccepted (s : State) : Bool :=
  decide (s.phase = .susp) && s.inited && !s.cfgErr && !s.stopped && !s.stopReq

/-- When the worker honours a stop request (43_scheduler.md R197). -/
def stopDue (s : State) : Bool := s.stopReq && decide (s.phase = .susp)

end Sys2Proof.Machine
end

