-- ==== Sys2Proof/Machine/Adc.lean ====
section
/-! DEFINITION. The BitBangADC operations CLKL, WRDY, SHB, GPL and CONV (40_adc_acquire.md). -/

namespace Sys2Proof.Machine

/-- `CLKL` (40_adc_acquire.md R122). -/
def execClkl (s : State) : Host.Outcome State Fault Refusal :=
  .next { lineWrite s.cfg.clkLine false s with phase := .wrdy }

/-- The polls of `WRDY c` while `n` are left: `true` when the line was read low; every high poll is counted
(40_adc_acquire.md R124). -/
def pollLoop (c : Chan) : Nat → State → Bool × State
  | 0, s => (false, s)
  | n + 1, s =>
    if dataLevel c s then
      pollLoop c n { afterRead c s with pollCnt := s.pollCnt + 1 }
    else (true, afterRead c s)

/-- How many polls the loop of R124 permits. It reads before it counts, so even a `MAX_POLLS` of 0, which `INIT`
rejects, gives one. -/
def pollBound (c : Chan) (s : State) : Nat := max 1 (s.cfg.maxPolls.get c)

/-- `WRDY` on ready (40_adc_acquire.md R124). -/
def enterFrame (s : State) : State := { s with rdy := true, acc := 0, bitCnt := 0, phase := .shb }

/-- The state `WRDY c` leaves (40_adc_acquire.md R124). -/
def waitReady (c : Chan) (s : State) : State :=
  let r := pollLoop c (pollBound c s) { s with pollCnt := 0 }
  if r.1 then enterFrame r.2 else takeCondition (.deviceNotReady c) r.2

/-- `WRDY c` (40_adc_acquire.md R124). -/
def execWrdy (c : Chan) (s : State) : Host.Outcome State Fault Refusal := .next (waitReady c s)

/-- The registers after the bit `b` of `SHB` (40_adc_acquire.md R126). -/
def shiftBit (b : Level) (s : State) : State :=
  if s.bitCnt + 1 = 24 then
    { s with acc := shiftIn s.acc b, bitCnt := s.bitCnt + 1, gCnt := 0, phase := .gpl }
  else { s with acc := shiftIn s.acc b, bitCnt := s.bitCnt + 1, phase := .shb }

/-- `SHB c` (40_adc_acquire.md R126): clock high, clock low, then one read. -/
def execShb (c : Chan) (s : State) : Host.Outcome State Fault Refusal :=
  .next (shiftBit (dataLevel c (pulse s)) (afterRead c (pulse s)))

/-- The registers after the pulse of `GPL` (40_adc_acquire.md R129). -/
def countExtra (s : State) : State :=
  { s with gCnt := s.gCnt + 1, phase := if s.gCnt + 1 = extraAt s then .conv else .gpl }

/-- `GPL` (40_adc_acquire.md R129): one pulse, no read. -/
def execGpl (s : State) : Host.Outcome State Fault Refusal := .next (countExtra (pulse s))

/-- `CONV` (40_adc_acquire.md R130). -/
def execConv (s : State) : Host.Outcome State Fault Refusal :=
  .next { s with smpVal := conv24 s.acc, smpTo := false, phase := .dec }

end Sys2Proof.Machine
end

