-- ==== Sys2Proof/Machine/Channel.lean ====
section
/-! DEFINITION. The operations on the channel state register and its boundaries: UPD, GATE, RDL and AMB
(42_channel_state.md). -/

namespace Sys2Proof.Machine

/-- `UPD c` (42_channel_state.md R166): on Timeout `LAST_VAL[c]` keeps its bits. -/
def execUpd (c : Chan) (s : State) : Host.Outcome State Fault Refusal :=
  .next { csWrite c s.np s.smpTo (if s.smpTo then (csRead c s).lastVal else s.smpVal) s.ns s with phase := .gate }

/-- `GATE c` (42_channel_state.md R172). -/
def execGate (c : Chan) (s : State) : Host.Outcome State Fault Refusal :=
  .next { setGate c (csRead c s).step s with phase := .next }

/-- `RDL c` (42_channel_state.md R175): the answer is recorded, no state is written. -/
def execRdl (c : Chan) (s : State) : Host.Outcome State Fault Refusal :=
  .next (record (.answer c (statusOf (csRead c s))) s)

/-- `AMB` (42_channel_state.md R178): sets `OVR`; it does not exist while `FUSION_PRESENT = 0`. -/
def execAmb (s : State) : Host.Outcome State Fault Refusal :=
  if s.fusionPresent then .next { s with ovr := true } else .refused .fusionAbsent

/-- The end of the override pulse clears `OVR` (42_channel_state.md R178). -/
def endPulse (s : State) : State := { s with ovr := false }

end Sys2Proof.Machine
end

