-- ==== Sys2Proof/Machine/Detector.lean ====
section
/-! DEFINITION. The StepDetector operation DEC (41_step_detector.md). -/

namespace Sys2Proof.Machine

/-- The pair `(NP, NS)` that `decide` returns: held on Timeout, the comparison on a Value (41_step_detector.md R151,
R155). -/
def decision (e : Entry) (x : RawSample) (threshold : Word32) : Word24 × Bool :=
  match x with
  | .timeout => (e.prev, e.step)
  | .value w => (w, stepFlag w threshold e.prev)

/-- `DEC c` (41_step_detector.md R151). -/
def execDec (c : Chan) (s : State) : Host.Outcome State Fault Refusal :=
  let d := decision (csRead c s) (sampleOf s) s.cfg.threshold
  .next { s with np := d.1, ns := d.2, phase := .upd }

end Sys2Proof.Machine
end

