-- ==== Sys2Proof/Machine/Scheduler.lean ====
section
/-! DEFINITION. The SamplingScheduler operations INIT, TICK, NEXT, SUSP and STOP (43_scheduler.md). -/

namespace Sys2Proof.Machine

/-- The state a legal `INIT` leaves: every register written in one step, then the clock driven low
(43_scheduler.md R186). -/
def loadConfig (r : CfgRecord) (s : State) : State :=
  record (.initResult true) (lineWrite r.clkLine false { s with cfg := regsOf r, inited := true })

/-- `INIT` (43_scheduler.md R186); outside its precondition a model refuses it (R188). -/
def execInit (s : State) : Host.Outcome State Fault Refusal :=
  if initAllowed s then
    .next (if configOk (offered s) then loadConfig (offered s) s
      else record (.initResult false) (takeCondition .configurationError s))
  else .refused .initOutsidePrecondition

/-- `TICK` (43_scheduler.md R190): starts a cycle, or is dropped (R191). -/
def execTick (s : State) : Host.Outcome State Fault Refusal :=
  .next (if tickAccepted s then { s with sched := .running, ch := 1, phase := .clkl } else s)

/-- `NEXT` (43_scheduler.md R193). -/
def execNext (s : State) : Host.Outcome State Fault Refusal :=
  .next (if s.ch.toNat < 4 then { s with ch := s.ch + 1, phase := .clkl } else { s with ch := 0, phase := .susp })

/-- `SUSP` (43_scheduler.md R194): everything holds, but a stop request is honoured here (R197). -/
def execSusp (s : State) : Host.Outcome State Fault Refusal :=
  .next (if stopDue s then { s with stopped := true } else s)

/-- `STOP` (43_scheduler.md R197): raises the request; the worker honours it at `SUSP`. -/
def execStop (s : State) : Host.Outcome State Fault Refusal := .next { s with stopReq := true }

end Sys2Proof.Machine
end

