-- ==== Sys2Proof/Machine/Dispatch.lean ====
section
/-! DEFINITION. The dispatch: one arm per operation, each a direct call of its meaning. -/

namespace Sys2Proof.Machine

def exec (i : Instr) (s : State) : Host.Outcome State Fault Refusal :=
  match i with
  | .susp => Sys2Proof.Machine.execSusp s
  | .clkl => Sys2Proof.Machine.execClkl s
  | .wrdy c => Sys2Proof.Machine.execWrdy c s
  | .shb c => Sys2Proof.Machine.execShb c s
  | .gpl => Sys2Proof.Machine.execGpl s
  | .conv => Sys2Proof.Machine.execConv s
  | .dec c => Sys2Proof.Machine.execDec c s
  | .upd c => Sys2Proof.Machine.execUpd c s
  | .gate c => Sys2Proof.Machine.execGate c s
  | .next => Sys2Proof.Machine.execNext s
  | .rdl c => Sys2Proof.Machine.execRdl c s
  | .init => Sys2Proof.Machine.execInit s
  | .tick => Sys2Proof.Machine.execTick s
  | .stop => Sys2Proof.Machine.execStop s
  | .amb => Sys2Proof.Machine.execAmb s

end Sys2Proof.Machine
end

