-- ==== Sys2Proof/Machine/Fetch.lean ====
section
/-! DEFINITION. What is performed next and by whom: the worker's op word from its position, or the head of the agenda
(10_state.md R30, 20_memory.md R72, R78). -/

namespace Sys2Proof.Machine

/-- `PHASE` as its opcode nibble (10_state.md R30, 30_encoding.md R104). -/
def Phase.code : Phase → BitVec 4
  | .susp => 0
  | .clkl => 1
  | .wrdy => 2
  | .shb => 3
  | .gpl => 4
  | .conv => 5
  | .dec => 6
  | .upd => 7
  | .gate => 8
  | .next => 9

/-- Whether the phase's operation takes a channel (30_encoding.md R104). -/
def Phase.takesChannel : Phase → Bool
  | .susp => false
  | .clkl => false
  | .wrdy => true
  | .shb => true
  | .gpl => false
  | .conv => false
  | .dec => true
  | .upd => true
  | .gate => true
  | .next => false

/-- The op word of the operation the worker performs next: `PHASE`, with the operand `c = CH` (10_state.md R30,
43_scheduler.md R195). -/
def workerWord (s : State) : OpWord := opWordOf s.phase.code (if s.phase.takesChannel then s.ch else 0)

/-- Takes the head of the agenda off. -/
def popMove (s : State) : State := { s with agenda := s.agenda.tail }

/-- Whose move it is: the head of the agenda, or the worker's when the agenda is empty. -/
def nextMove (s : State) : Move := s.agenda.head?.getD .worker

/-- The op word of a move, with whether the worker performs it; `none` for the end of the override pulse. -/
def wordOf (m : Move) (s : State) : Option (Bool × OpWord) :=
  match m with
  | .worker => some (true, workerWord s)
  | .outside w => some (false, w)
  | .pulseEnd => none

/-- Whether the agent may perform the operation: the worker its own ten, an outside agent the other five
(30_encoding.md R104, 60_exceptions.md R230). -/
def mayPerform (worker : Bool) (i : Instr) : Bool := decide (i.agent = .worker) == worker

/-- The phase whose operation an instruction is, if it is one of the worker's, and its channel field. -/
def positionOf : Instr → Option (Phase × Option Chan)
  | .susp => some (.susp, none)
  | .clkl => some (.clkl, none)
  | .wrdy c => some (.wrdy, some c)
  | .shb c => some (.shb, some c)
  | .gpl => some (.gpl, none)
  | .conv => some (.conv, none)
  | .dec c => some (.dec, some c)
  | .upd c => some (.upd, some c)
  | .gate c => some (.gate, some c)
  | .next => some (.next, none)
  | .rdl _ => none
  | .init => none
  | .tick => none
  | .stop => none
  | .amb => none

/-- The `CH` that goes with a position: the operation's own channel; 0 at `SUSP`; else the channel in progress, or
channel 1 where `CH` names none (10_state.md R29). -/
def channelFor (p : Phase) (oc : Option Chan) (ch : BitVec 3) : BitVec 3 :=
  match oc with
  | some c => c.code
  | none =>
    if p = .susp then 0
    else
      match channelOf ch with
      | .ok _ => ch
      | .error _ => 1

/-- The worker placed where it performs an operation next, with the next move its own. -/
def placeWorker (p : Phase) (oc : Option Chan) (s : State) : State :=
  { s with phase := p, ch := channelFor p oc s.ch, agenda := .worker :: s.agenda }

/-- The state whose next step performs the operation of an op word: the worker's position for one of its operations,
the head of the agenda for any other word (log 5). -/
def placeWord (w : OpWord) (s : State) : State :=
  match decode s.fusionPresent w with
  | .ok i =>
    match positionOf i with
    | some (p, oc) => placeWorker p oc s
    | none => { s with agenda := .outside w :: s.agenda }
  | .error _ => { s with agenda := .outside w :: s.agenda }

end Sys2Proof.Machine
end

