-- ==== Sys2Proof/Machine/Step.lean ====
section
/-! DEFINITION. One step: one operation performed by one agent (00_scope.md R15), and where a word is put so that the
next step performs it. -/

namespace Sys2Proof.Machine

/-- An op word performed by the worker or by an outside agent: an illegal word is refused (30_encoding.md R105), as is
a worker's operation asked for from outside (60_exceptions.md R230). -/
def perform (worker : Bool) (w : OpWord) (s : State) : Host.Outcome State Fault Refusal :=
  match decode s.fusionPresent w with
  | .error r => .refused (.illegalOpWord w r)
  | .ok i => if mayPerform worker i then exec i s else .refused (.notAnOutsideOperation w)

/-- One step. -/
def step (s : State) : Host.Outcome State Fault Refusal :=
  match wordOf (nextMove s) s with
  | some (worker, w) => perform worker w (popMove s)
  | none => .next (endPulse (popMove s))

/-- `s` with the operation of the op word `w` placed where `step` performs its next operation (log 5). -/
def State.withFetchWord (s : State) (_nbits w : Nat) : State := placeWord (BitVec.ofNat 8 w) s

end Sys2Proof.Machine
end

