-- ==== Sys2Proof/Machine/Fairness.lean ====
section
/-! DEFINITION. Runs for ever under an environment that never stops asking, and the fairness the spec assumes of them
(00_scope.md R19, 70_reset_and_hazards.md R272, 92_eei_decisions.md D31). Claims about what eventually happens are stated
with these; each run is a run of `step`. -/

namespace Sys2Proof.Machine

/-- A move asked for, after those already asked for. -/
def askMove (m : Move) (s : State) : State := { s with agenda := s.agenda ++ [m] }

/-- The state at moment `n` of the run for ever from `s` in which the environment asks for the move `e k` at each moment
`k`: the agents take turns without end (20_memory.md R72). -/
def runUnder (e : Nat → Move) : Nat → State → Host.Outcome State Fault Refusal
  | 0, s => .next s
  | n + 1, s =>
    match runUnder e n s with
    | .next t => step (askMove (e n) t)
    | .fault r => .fault r
    | .refused r => .refused r

/-- At moment `n` the move `m` is made, in the state `u`. -/
def MakesMove (e : Nat → Move) (s : State) (n : Nat) (m : Move) (u : State) : Prop :=
  runUnder e n s = .next u ∧ nextMove (askMove (e n) u) = m

/-- At moment `n` a tick is accepted (43_scheduler.md R190). -/
def TickAcceptedAt (e : Nat → Move) (s : State) (n : Nat) : Prop :=
  ∃ u, MakesMove e s n (.outside (encode .tick)) u ∧ tickAccepted u = true

/-- At moment `n` a stop has been requested (43_scheduler.md R197). -/
def StopRequestedAt (e : Nat → Move) (s : State) (n : Nat) : Prop :=
  ∃ u, runUnder e n s = .next u ∧ u.stopReq = true

/-- 70_reset_and_hazards.md R272 (a), the tick source ticks again and again: from every moment with `PHASE = SUSP`,
`INITED = 1` and no stop or error flag, which is `tickAccepted`, a tick is eventually accepted. -/
def TickFair (e : Nat → Move) (s : State) : Prop :=
  ∀ n u, runUnder e n s = .next u → tickAccepted u = true →
    ∃ m, n ≤ m ∧ TickAcceptedAt e s m

/-- 70_reset_and_hazards.md R272 (b), the worker, once in a cycle, keeps stepping until `SUSP`: from every moment inside a
cycle, a move of the worker eventually comes. -/
def WorkerFair (e : Nat → Move) (s : State) : Prop :=
  ∀ n u, runUnder e n s = .next u → u.phase ≠ .susp → ∃ m v, n ≤ m ∧ MakesMove e s m .worker v

/-- The fairness of 70_reset_and_hazards.md R272; its part (c), the bound of `WRDY`, is `pollBound`. -/
structure Fair (e : Nat → Move) (s : State) : Prop where
  tick : TickFair e s
  worker : WorkerFair e s

/-- A move its agent has after `INIT` (60_exceptions.md R230, 43_scheduler.md R188): the worker's, the end of the override
pulse, or a legal op word of `RDL`, `TICK`, `STOP` or `AMB`. -/
def Rightful (fusionPresent : Bool) : Move → Prop
  | .worker => True
  | .pulseEnd => True
  | .outside w => ∃ i, decode fusionPresent w = .ok i ∧ i.agent ≠ .worker ∧ i ≠ .init

/-- Every move asked for, now or later, has the property `P`. -/
def AllMoves (P : Move → Prop) (e : Nat → Move) (s : State) : Prop := (∀ m ∈ s.agenda, P m) ∧ ∀ n, P (e n)

end Sys2Proof.Machine
end

