-- ==== Sys2Proof/Machine/Cycle.lean ====
section
/-! DEFINITION. Runs of several steps, the composite operations (30_encoding.md R109), and what a channel's data line
shows during one acquisition, read from its amplifier environment alone. Claims are stated with these; `step` uses none
of them. -/

namespace Sys2Proof.Machine

/-- `n` steps. -/
def run : Nat → State → Host.Outcome State Fault Refusal
  | 0, s => .next s
  | n + 1, s =>
    match step s with
    | .next t => run n t
    | .fault r => .fault r
    | .refused r => .refused r

/-- The op words performed in the next `n` steps, first first. -/
def performed : Nat → State → List OpWord
  | 0, _ => []
  | n + 1, s =>
    match wordOf (nextMove s) s, step s with
    | some (_, w), .next t => w :: performed n t
    | _, _ => []

/-- `FRAME c` (30_encoding.md R109). -/
def frameOps (c : Chan) (extra : Nat) : List Instr :=
  List.replicate Config.nDataPulses (.shb c) ++ List.replicate extra .gpl

/-- `ACQ c` (30_encoding.md R109): the frame and the conversion only when `RDY = 1`. -/
def acqOps (c : Chan) (ready : Bool) (extra : Nat) : List Instr :=
  [.clkl, .wrdy c] ++ (if ready then frameOps c extra ++ [.conv] else [])

/-- `CHAN c` (30_encoding.md R109). -/
def chanOps (c : Chan) (ready : Bool) (extra : Nat) : List Instr :=
  acqOps c ready extra ++ [.dec c, .upd c, .gate c, .next]

/-- `CYCLE` (30_encoding.md R109). -/
def cycleOps (ready : PerCh Bool) (extra : PerCh Nat) : List Instr :=
  chanOps .c1 ready.c1 extra.c1 ++ chanOps .c2 ready.c2 extra.c2
    ++ chanOps .c3 ready.c3 extra.c3 ++ chanOps .c4 ready.c4 extra.c4

/-- The ready wait as the data line shows it: the number of high polls before a low one, when one of the next `m`
polls reads low (40_adc_acquire.md R124, R132). -/
def Amp.firstLow (c : Chan) (a : Amp) (m : Nat) : Option Nat := (List.range m).find? (fun j => !a.nth c j)

/-- The 24-bit word the data line shows in the next 24 reads, first bit in bit 23 (30_encoding.md R93). -/
def Amp.word (c : Chan) (a : Amp) : Word24 :=
  (List.range 24).foldl (fun u k => shiftIn u (a.nth c k)) 0

/-- The RawSample of one acquisition (40_adc_acquire.md R132). -/
def Amp.sample (c : Chan) (a : Amp) (m : Nat) : RawSample :=
  match a.firstLow c m with
  | some j => .value (conv24 ((a.after (j + 1)).word c))
  | none => .timeout

/-- The entry of a channel after a cycle that gave it the sample `x` (43_scheduler.md R196). -/
def Entry.afterCycle (e : Entry) (threshold : Word32) : RawSample → Entry
  | .timeout => { e with lastTo := true }
  | .value w => { prev := w, lastTo := false, lastVal := w, step := decide (w.toInt - threshold.toInt > e.prev.toInt) }

/-- The line events of one acquisition of channel `c` (40_adc_acquire.md R136). -/
def acqTrace (c : Chan) (cfg : CfgRegs) (a : Amp) (m : Nat) : List Event :=
  [.lineWrite cfg.clkLine false] ++
    match a.firstLow c m with
    | some j =>
      List.replicate j (.lineRead (cfg.dataLine.get c) true) ++ [.lineRead (cfg.dataLine.get c) false]
        ++ (List.range 24).flatMap (fun k =>
            [.lineWrite cfg.clkLine true, .lineWrite cfg.clkLine false,
              .lineRead (cfg.dataLine.get c) ((a.after (j + 1)).nth c k)])
        ++ (List.replicate (cfg.extra.get c).toNat
            [Event.lineWrite cfg.clkLine true, Event.lineWrite cfg.clkLine false]).flatten
    | none => List.replicate m (.lineRead (cfg.dataLine.get c) true)

/-- The line events of a record (00_scope.md R18, the line trace). -/
def lineEvents (es : List Event) : List Event :=
  es.filter fun
    | .lineWrite _ _ => true
    | .lineRead _ _ => true
    | _ => false

/-- The actuation events of a record. -/
def gateEvents (es : List Event) : List (Chan × Level) :=
  es.filterMap fun
    | .setGate c v => some (c, v)
    | _ => none

end Sys2Proof.Machine
end

