-- ==== Sys2Proof/Safety.lean ====
section
/-! DEFINITION. What counts as a good state and a good end, the invariant of the block, and the platform's obligation
on the ready wait. -/

namespace Sys2Proof.Machine

/-- A good state: no ConfigurationError. A state reached through DeviceNotReady is good (60_exceptions.md R216), one
with `CFG_ERR = 1` never is (R217). -/
def Good (s : State) : Prop := s.cfgErr = false

/-- A good end of a finite run: any moment with `PHASE = SUSP` (43_scheduler.md R200) that is good. -/
def GoodEnd (s : State) : Prop := Good s ∧ s.phase = .susp

/-- The registers hold a configuration that satisfies `CONFIG_OK` (43_scheduler.md R187). -/
structure RegsLegal (r : CfgRegs) : Prop where
  assigned : ∀ l ∈ r.clkLine :: r.dataLine.toList, l ≠ none
  distinct : (r.clkLine :: r.dataLine.toList).Nodup
  extra : ∀ c, r.extra.get c ≠ 0
  polls : ∀ c, 1 ≤ r.maxPolls.get c
  period : 0 < r.tickPeriod

/-- The invariant of the block: what holds between two operations, in every state a run reaches. -/
structure Invariant (s : State) : Prop where
  /-- `CH` is 0 exactly between cycles, and never 5, 6, 7 (10_state.md R29). -/
  restsAtZero : s.phase = .susp ↔ s.ch = 0
  channelLegal : s.ch.toNat ≤ 4
  /-- The clock is low outside a pulse (10_state.md R25). -/
  clockLow : s.sck = false
  /-- A cycle runs only after a successful `INIT` and an accepted tick (43_scheduler.md R190). -/
  cycleStarted : s.phase ≠ .susp → s.sched = .running
  runningInited : s.sched = .running → s.inited = true
  oneInit : s.inited = true → s.cfgErr = false
  /-- `STOPPED` stands only over a request, with the worker at rest (43_scheduler.md R197). -/
  stoppedAtRest : s.stopped = true → s.stopReq = true ∧ s.phase = .susp
  /-- After `INIT` the registers are legal (43_scheduler.md R186, R187). -/
  configLegal : s.inited = true → RegsLegal s.cfg
  /-- The preconditions of `SHB`, `GPL` and `CONV` (40_adc_acquire.md R126, R129, R130). -/
  atShb : s.phase = .shb → s.rdy = true ∧ s.bitCnt.toNat < 24
  atGpl : s.phase = .gpl → s.rdy = true ∧ s.bitCnt = 24 ∧ s.gCnt.toNat < (extraAt s).toNat
  atConv : s.phase = .conv → s.rdy = true ∧ s.bitCnt = 24 ∧ s.gCnt = extraAt s
  /-- What `UPD` finds in `NP`, `NS` (41_step_detector.md R151, R155). -/
  atUpd : s.phase = .upd → ∀ c, s.ch = c.code →
    (s.smpTo = false → s.np = s.smpVal)
      ∧ (s.smpTo = true → s.np = (s.bank.get c).prev ∧ s.ns = (s.bank.get c).step)
  /-- Whenever `LAST_TO[c] = 0`, `LAST_VAL[c] = PREV[c]` (42_channel_state.md R168). -/
  lastIsPrev : ∀ c, (s.bank.get c).lastTo = false → (s.bank.get c).lastVal = (s.bank.get c).prev
  /-- `GATE[c] = STEP[c]` outside the interval between `UPD c` and `GATE c` (42_channel_state.md R174). -/
  gateIsStep : ∀ c, s.gate.get c = (s.bank.get c).step ∨ (s.phase = .gate ∧ s.ch = c.code)

/-- The relation a platform must keep so that Timeout does not come before the configured wait has elapsed
(00_scope.md R12); a platform obligation, no rule of behaviour reads it. -/
def PlatformWait (s : State) : Prop :=
  ∀ c, Config.tTimeout c ≤ (s.cfg.maxPolls.get c - 1) * Config.tPoll

end Sys2Proof.Machine
end

