-- ==== Sys2Proof/Certificates/Slice0/Obligations.lean ====
section
/-! DEFINITION. The statements for the provers, each with the rule of spec/ it formalises. -/

open Sys2Proof Sys2Proof.Machine

/-! ## Op words -/

/-- 30_encoding.md R104: the whole opcode map, every op word with the agent that performs its operation. -/
def Obligations.OpcodeMapIsAsListed : Prop :=
  (∀ f, decode f 0x00 = .ok .susp ∧ decode f 0x10 = .ok .clkl ∧ decode f 0x40 = .ok .gpl
    ∧ decode f 0x50 = .ok .conv ∧ decode f 0x90 = .ok .next ∧ decode f 0xB0 = .ok .init
    ∧ decode f 0xC0 = .ok .tick ∧ decode f 0xD0 = .ok .stop)
  ∧ (∀ f, ∀ p ∈ [(Chan.c1, 1#8), (Chan.c2, 2#8), (Chan.c3, 3#8), (Chan.c4, 4#8)],
      decode f (0x20 + p.2) = .ok (.wrdy p.1) ∧ decode f (0x30 + p.2) = .ok (.shb p.1)
      ∧ decode f (0x60 + p.2) = .ok (.dec p.1) ∧ decode f (0x70 + p.2) = .ok (.upd p.1)
      ∧ decode f (0x80 + p.2) = .ok (.gate p.1) ∧ decode f (0xA0 + p.2) = .ok (.rdl p.1))
  ∧ (decode true 0xE0 = .ok .amb ∧ ∃ r, decode false 0xE0 = .error r)
  ∧ (∀ f (w : OpWord), w.toNat / 16 = 15 → ∃ r, decode f w = .error r)
  ∧ (∀ i ∈ [Instr.susp, .clkl, .gpl, .conv, .next], i.agent = .worker)
  ∧ (∀ c, ∀ i ∈ [Instr.wrdy c, .shb c, .dec c, .upd c, .gate c], i.agent = .worker)
  ∧ (∀ c, (Instr.rdl c).agent = .statusReader)
  ∧ Instr.init.agent = .configLoader ∧ Instr.tick.agent = .tickSource
  ∧ Instr.stop.agent = .shutdownRequester ∧ Instr.amb.agent = .ambientSource

/-- 30_encoding.md R105: exactly the listed words are illegal, the decoder rejects each, and a step that is asked to
perform one is refused. -/
def Obligations.IllegalOpWordsAreRefused : Prop :=
  (∀ f (w : OpWord),
    (∃ r, decode f w = .error r) ↔
      (w.toNat / 16 = 15
        ∨ w.toNat / 8 % 2 = 1
        ∨ (w.toNat / 16 ∈ [2, 3, 6, 7, 8, 10] ∧ 5 ≤ w.toNat % 8)
        ∨ (w.toNat / 16 ∈ [2, 3, 6, 7, 8, 10] ∧ w.toNat % 8 = 0)
        ∨ (w.toNat / 16 ∈ [0, 1, 4, 5, 9, 11, 12, 13, 14] ∧ w.toNat % 8 ≠ 0)
        ∨ (w.toNat / 16 = 14 ∧ f = false)))
  ∧ ∀ (s : State) (w : OpWord) (rest : List Move) (r : Reject),
      s.agenda = .outside w :: rest → decode s.fusionPresent w = .error r →
      step s = .refused (.illegalOpWord w r)

/-- 30_encoding.md R103, R104: no two words decode to one operation, and every decoded operation exists in the block. -/
def Obligations.DecodedWordEncodesBack : Prop :=
  ∀ (f : Bool) (w : OpWord) (i : Instr), decode f w = .ok i → encode i = w ∧ WellFormed f i = true

/-- 30_encoding.md R103, R107: a trace of well-formed operations, written as bytes and decoded, is that trace. -/
def Obligations.TraceDecodesToItself : Prop :=
  ∀ (f : Bool) (is : List Instr), (∀ i ∈ is, WellFormed f i = true) → decodeTrace f (encodeTrace is) = .ok is

/-! ## The step -/

/-- 00_scope.md R15, R16: a step performs the decoded operation of the agent whose move it is; the agenda is the
model's own (log 4), and the end of the override pulse is a move of its own (log 6). That an outside agent asking for an
operation of the worker is refused is the model's reading (log 21) of 60_exceptions.md R230, R231. -/
def Obligations.StepPerformsTheDecodedOperation : Prop :=
  (∀ (s : State) (i : Instr), s.agenda = [] → decode s.fusionPresent (workerWord s) = .ok i → step s = exec i s)
  ∧ (∀ (s : State) (rest : List Move) (i : Instr), s.agenda = .worker :: rest →
      decode s.fusionPresent (workerWord s) = .ok i → step s = exec i { s with agenda := rest })
  ∧ (∀ (s : State) (w : OpWord) (rest : List Move) (i : Instr), s.agenda = .outside w :: rest →
      decode s.fusionPresent w = .ok i →
      (i.agent ≠ .worker → step s = exec i { s with agenda := rest })
        ∧ (i.agent = .worker → step s = .refused (.notAnOutsideOperation w)))
  ∧ (∀ (s : State) (rest : List Move), s.agenda = .pulseEnd :: rest →
      step s = .next { s with agenda := rest, ovr := false })

/-- Log 5: a well-formed operation placed by `withFetchWord` is what the next step performs, the worker's at the
position that names it, an outside agent's at the state itself. -/
def Obligations.PlacedWordIsPerformedNext : Prop :=
  ∀ (s : State) (i : Instr), WellFormed s.fusionPresent i = true →
    ∃ t : State, step (s.withFetchWord 8 (encode i).toNat) = exec i t
      ∧ t = { s with phase := t.phase, ch := t.ch }
      ∧ (i.agent = .worker → workerWord t = encode i)
      ∧ (i.agent ≠ .worker → t = s)

/-- 43_scheduler.md R195: the complete transition table of the worker. A row of the worker is performed whenever it is
the worker's move. -/
def Obligations.WorkerFollowsTheTransitionTable : Prop :=
  (∀ (s : State) (rest : List Move), s.agenda = .outside 0xC0 :: rest → s.phase = .susp → s.inited = true →
      s.cfgErr = false → s.stopped = false → s.stopReq = false →
      ∃ t, step s = .next t ∧ t.phase = .clkl ∧ t.ch = 1)
  ∧ (∀ (s : State) (rest : List Move), s.agenda = .outside 0xC0 :: rest → s.phase = .susp → s.ch = 0 →
      (s.inited = false ∨ s.cfgErr = true ∨ s.stopped = true ∨ s.stopReq = true) →
      ∃ t, step s = .next t ∧ t.phase = .susp ∧ t.ch = 0)
  ∧ (∀ s : State, nextMove s = .worker → s.phase = .susp → s.ch = 0 →
      ∃ t, step s = .next t ∧ t.phase = .susp ∧ t.ch = 0)
  ∧ (∀ s : State, nextMove s = .worker → s.phase = .clkl → ∃ t, step s = .next t ∧ t.phase = .wrdy ∧ t.ch = s.ch)
  ∧ (∀ (c : Chan) (s : State), nextMove s = .worker → s.phase = .wrdy → s.ch = c.code → 1 ≤ s.cfg.maxPolls.get c →
      ∃ t, step s = .next t ∧ t.ch = s.ch
        ∧ ((∃ j, j < s.cfg.maxPolls.get c ∧ (s.amps.get c).nth c j = false) → t.phase = .shb)
        ∧ ((∀ j, j < s.cfg.maxPolls.get c → (s.amps.get c).nth c j = true) → t.phase = .dec))
  ∧ (∀ (c : Chan) (s : State), nextMove s = .worker → s.phase = .shb → s.ch = c.code → s.bitCnt.toNat < 24 →
      ∃ t, step s = .next t ∧ t.ch = s.ch ∧ t.bitCnt.toNat = s.bitCnt.toNat + 1
        ∧ t.phase = if t.bitCnt.toNat < 24 then .shb else .gpl)
  ∧ (∀ (c : Chan) (s : State), nextMove s = .worker → s.phase = .gpl → s.ch = c.code →
      s.gCnt.toNat < (s.cfg.extra.get c).toNat →
      ∃ t, step s = .next t ∧ t.ch = s.ch ∧ t.gCnt.toNat = s.gCnt.toNat + 1
        ∧ t.phase = if t.gCnt.toNat < (s.cfg.extra.get c).toNat then .gpl else .conv)
  ∧ (∀ s : State, nextMove s = .worker → s.phase = .conv → ∃ t, step s = .next t ∧ t.phase = .dec ∧ t.ch = s.ch)
  ∧ (∀ (c : Chan) (s : State), nextMove s = .worker → s.ch = c.code →
      (s.phase = .dec → ∃ t, step s = .next t ∧ t.phase = .upd ∧ t.ch = s.ch)
      ∧ (s.phase = .upd → ∃ t, step s = .next t ∧ t.phase = .gate ∧ t.ch = s.ch)
      ∧ (s.phase = .gate → ∃ t, step s = .next t ∧ t.phase = .next ∧ t.ch = s.ch))
  ∧ (∀ s : State, nextMove s = .worker → s.phase = .next →
      ∃ t, step s = .next t
        ∧ (s.ch.toNat < 4 → t.phase = .clkl ∧ t.ch.toNat = s.ch.toNat + 1)
        ∧ (s.ch = 4 → t.phase = .susp ∧ t.ch = 0))

/-! ## BitBangADC -/

/-- 40_adc_acquire.md R122: `CLKL`, its op word, its whole effect and frame. -/
def Obligations.ClklDrivesTheClockLow : Prop :=
  encode .clkl = 0x10#8
  ∧ ∀ s : State, exec .clkl s = .next { s with
      sck := false
      phase := .wrdy
      trace := s.trace ++ [.lineWrite s.cfg.clkLine false] }

/-- 40_adc_acquire.md R124: `WRDY c`, its op word; it reads until a poll is low or `MAX_POLLS[c]` polls were high; both
outcomes with their whole effect and frame, and one of them always happens. -/
def Obligations.WrdyWaitsForALowLineUpToTheBound : Prop :=
  ∀ (c : Chan) (s : State),
    encode (.wrdy c) = 0x20#8 ||| c.code.setWidth 8
    ∧ (1 ≤ s.cfg.maxPolls.get c →
      (∀ j, j < s.cfg.maxPolls.get c →
        (∀ i, i < j → (s.amps.get c).nth c i = true) → (s.amps.get c).nth c j = false →
        exec (.wrdy c) s = .next { s with
          pollCnt := j
          rdy := true
          acc := 0
          bitCnt := 0
          phase := .shb
          amps := s.amps.set c ((s.amps.get c).after (j + 1))
          trace := s.trace ++ List.replicate j (.lineRead (s.cfg.dataLine.get c) true)
            ++ [.lineRead (s.cfg.dataLine.get c) false] })
      ∧ ((∀ i, i < s.cfg.maxPolls.get c → (s.amps.get c).nth c i = true) →
        exec (.wrdy c) s = .next { s with
          pollCnt := s.cfg.maxPolls.get c
          rdy := false
          smpTo := true
          phase := .dec
          amps := s.amps.set c ((s.amps.get c).after (s.cfg.maxPolls.get c))
          trace := s.trace
            ++ List.replicate (s.cfg.maxPolls.get c) (.lineRead (s.cfg.dataLine.get c) true)
            ++ [.raised (.deviceNotReady c)] })
      ∧ ((∃ j, j < s.cfg.maxPolls.get c ∧ (∀ i, i < j → (s.amps.get c).nth c i = true)
            ∧ (s.amps.get c).nth c j = false)
          ∨ ∀ i, i < s.cfg.maxPolls.get c → (s.amps.get c).nth c i = true))

/-- The model's reading (log 11) of a `MAX_POLLS[c]` of 0, which `INIT` rejects: the wait reads before it counts, so it
polls exactly once. -/
def Obligations.WrdyPollsOnceUnderAZeroBound : Prop :=
  ∀ (c : Chan) (s : State), s.cfg.maxPolls.get c = 0 →
    ∃ t, exec (.wrdy c) s = .next t
      ∧ t.amps = s.amps.set c ((s.amps.get c).after 1)
      ∧ t.rdy = !(s.amps.get c).nth c 0
      ∧ t.phase = (if (s.amps.get c).nth c 0 = true then .dec else .shb)
      ∧ t.bank = s.bank ∧ t.gate = s.gate ∧ t.sck = s.sck ∧ t.cfg = s.cfg

/-- 40_adc_acquire.md R126: `SHB c`, its op word, the three line events in order, its whole effect and frame, under the
rule's precondition. -/
def Obligations.ShbShiftsOneBitIn : Prop :=
  ∀ (c : Chan) (s : State),
    encode (.shb c) = 0x30#8 ||| c.code.setWidth 8
    ∧ (s.rdy = true → s.bitCnt.toNat < 24 → s.sck = false → exec (.shb c) s = .next { s with
        sck := false
        acc := (s.acc <<< 1) ||| (BitVec.ofBool ((s.amps.get c).nth c 0)).setWidth 24
        bitCnt := s.bitCnt + 1
        gCnt := if s.bitCnt + 1 = 24 then 0 else s.gCnt
        phase := if s.bitCnt + 1 = 24 then .gpl else .shb
        amps := s.amps.set c ((s.amps.get c).after 1)
        trace := s.trace ++ [.lineWrite s.cfg.clkLine true, .lineWrite s.cfg.clkLine false,
          .lineRead (s.cfg.dataLine.get c) ((s.amps.get c).nth c 0)] })

/-- 40_adc_acquire.md R127, 30_encoding.md R93: the word after the 24 `SHB` of a frame, whatever `ACC` held before. -/
def Obligations.FrameAssemblesTheWord : Prop :=
  ∀ (c : Chan) (s : State), s.agenda = [] → s.phase = .shb → s.ch = c.code → s.bitCnt = 0 →
    ∃ t, run 24 s = .next t
      ∧ (∀ k, k < 24 → t.acc.getLsbD (23 - k) = (s.amps.get c).nth c k)
      ∧ t.acc.toNat = ((List.range 24).map (fun k => ((s.amps.get c).nth c k).toNat * 2 ^ (23 - k))).sum
      ∧ t.phase = .gpl ∧ t.ch = s.ch ∧ t.bitCnt = 24 ∧ t.gCnt = 0 ∧ t.bank = s.bank ∧ t.gate = s.gate

/-- 40_adc_acquire.md R129: `GPL`, its op word, one pulse and no read, its whole effect and frame, under the rule's
precondition. -/
def Obligations.GplIssuesOnePulse : Prop :=
  encode .gpl = 0x40#8
  ∧ ∀ (c : Chan) (s : State), s.ch = c.code → s.bitCnt = 24 → s.gCnt.toNat < (s.cfg.extra.get c).toNat →
      s.sck = false →
      exec .gpl s = .next { s with
        sck := false
        gCnt := s.gCnt + 1
        phase := if s.gCnt + 1 = s.cfg.extra.get c then .conv else .gpl
        trace := s.trace ++ [.lineWrite s.cfg.clkLine true, .lineWrite s.cfg.clkLine false] }

/-- 40_adc_acquire.md R130: `CONV`, its op word, the value of the sample, its whole effect and frame, under the rule's
precondition. -/
def Obligations.ConvConvertsTheWord : Prop :=
  encode .conv = 0x50#8
  ∧ ∀ (c : Chan) (s : State), s.ch = c.code → s.bitCnt = 24 → s.gCnt = s.cfg.extra.get c →
      ∃ v : Word24,
        (v.toInt = if (s.acc ^^^ 0x800000#24).toNat < 0x800000 then ((s.acc ^^^ 0x800000#24).toNat : Int)
          else ((s.acc ^^^ 0x800000#24).toNat : Int) - 0x1000000)
        ∧ exec .conv s = .next { s with smpVal := v, smpTo := false, phase := .dec }

/-- The model's choice outside the preconditions of `SHB`, `GPL` and `CONV`, and for a `CH` that names no channel
(log 8, log 10): each still does what its pseudocode says, with counters that wrap at their widths. -/
def Obligations.FrameOperationsRunInEveryState : Prop :=
  (∀ (c : Chan) (s : State), ∃ t, exec (.shb c) s = .next t
    ∧ t.acc.toNat = (2 * s.acc.toNat + ((s.amps.get c).nth c 0).toNat) % 2 ^ 24
    ∧ t.bitCnt.toNat = (s.bitCnt.toNat + 1) % 32 ∧ t.sck = false
    ∧ (t.phase = .gpl ↔ s.bitCnt.toNat = 23) ∧ (t.phase = .shb ↔ s.bitCnt.toNat ≠ 23))
  ∧ (∀ s : State, ∃ t, exec .gpl s = .next t ∧ t.gCnt.toNat = (s.gCnt.toNat + 1) % 4 ∧ t.sck = false
    ∧ (t.phase = .conv ∨ t.phase = .gpl) ∧ t.amps = s.amps)
  ∧ (∀ s : State, ∃ t, exec .conv s = .next t ∧ t.smpVal.toInt = (s.acc.toNat : Int) - 8388608 ∧ t.smpTo = false
    ∧ t.phase = .dec)

/-- 40_adc_acquire.md R131: the laws of the conversion: its own inverse on patterns, the closed form in both halves,
`u - 8388608`, in range, strictly increasing, a bijection between words and sample values, and not sign extension. -/
def Obligations.ConversionIsExactAndBijective : Prop :=
  (∀ u : Word24, conv24 u ^^^ 0x800000#24 = u)
  ∧ (∀ u : Word24, 0x800000 ≤ u.toNat → (conv24 u).toNat + 0x800000 = u.toNat ∧ (conv24 u).toNat < 0x800000)
  ∧ (∀ u : Word24, u.toNat < 0x800000 → (conv24 u).toNat = u.toNat + 0x800000)
  ∧ (∀ u : Word24, (conv24 u).toInt = (u.toNat : Int) - 8388608)
  ∧ (∀ u : Word24, -8388608 ≤ (conv24 u).toInt ∧ (conv24 u).toInt ≤ 8388607)
  ∧ (∀ u v : Word24, u.toNat < v.toNat → (conv24 u).toInt < (conv24 v).toInt)
  ∧ (∀ n : Int, -8388608 ≤ n → n ≤ 8388607 → ∃ u : Word24, (conv24 u).toInt = n ∧ ∀ v, (conv24 v).toInt = n → v = u)
  ∧ (∀ u : Word24, (conv24 u).toInt - u.toInt = 8388608 ∨ u.toInt - (conv24 u).toInt = 8388608)

/-! ## StepDetector -/

/-- 41_step_detector.md R151, R152, R155, R157: `DEC c`, its op word; held on Timeout, the exact comparison on a Value;
its whole effect and frame. -/
def Obligations.DecAppliesTheThresholdPolicy : Prop :=
  ∀ (c : Chan) (s : State),
    encode (.dec c) = 0x60#8 ||| c.code.setWidth 8
    ∧ (s.smpTo = true → exec (.dec c) s = .next { s with
        np := (s.bank.get c).prev
        ns := (s.bank.get c).step
        phase := .upd })
    ∧ (s.smpTo = false → exec (.dec c) s = .next { s with
        np := s.smpVal
        ns := decide (s.smpVal.toInt - s.cfg.threshold.toInt > (s.bank.get c).prev.toInt)
        phase := .upd })

/-- 41_step_detector.md R158: the source's worked cases, in every state that has their inputs. -/
def Obligations.DecWorkedCases : Prop :=
  ∀ (c : Chan) (s : State), s.smpTo = false → s.cfg.threshold = 1000 →
    ∀ p ∈ [((0 : Word24), (1500 : Word24), true), (0, 900, false), (2000, 2500, false), (2000, 3500, true)],
      (s.bank.get c).prev = p.1 → s.smpVal = p.2.1 →
      ∃ t, exec (.dec c) s = .next t ∧ t.np = p.2.1 ∧ t.ns = p.2.2

/-- 41_step_detector.md R153: the three forms of the comparison agree for all inputs. -/
def Obligations.DecFormsOfTheComparisonAgree : Prop :=
  ∀ (c : Chan) (s : State), s.smpTo = false →
    ∃ t, exec (.dec c) s = .next t
      ∧ (t.ns = true ↔ s.smpVal.toInt > (s.bank.get c).prev.toInt + s.cfg.threshold.toInt)
      ∧ (t.ns = true ↔ s.smpVal.toInt - (s.bank.get c).prev.toInt > s.cfg.threshold.toInt)

/-! ## ChannelState -/

/-- 42_channel_state.md R166: `UPD c`, its op word, both cases with their whole effect and frame. -/
def Obligations.UpdWritesOneEntry : Prop :=
  ∀ (c : Chan) (s : State),
    encode (.upd c) = 0x70#8 ||| c.code.setWidth 8
    ∧ (s.smpTo = true → exec (.upd c) s = .next { s with
        bank := s.bank.set c { prev := s.np, lastTo := true, lastVal := (s.bank.get c).lastVal, step := s.ns }
        phase := .gate })
    ∧ (s.smpTo = false → exec (.upd c) s = .next { s with
        bank := s.bank.set c { prev := s.np, lastTo := false, lastVal := s.smpVal, step := s.ns }
        phase := .gate })

/-- 41_step_detector.md R155, 42_channel_state.md R167: after a Timeout, `DEC`, `UPD` and `GATE` leave the weight and
the flag as they were, mark the entry, and emit the held level. -/
def Obligations.TimeoutHoldsWeightAndGate : Prop :=
  ∀ (c : Chan) (s : State), s.smpTo = true →
    ∃ t u v, exec (.dec c) s = .next t ∧ exec (.upd c) t = .next u ∧ exec (.gate c) u = .next v
      ∧ v.bank.get c = { s.bank.get c with lastTo := true }
      ∧ (∀ d, d ≠ c → v.bank.get d = s.bank.get d)
      ∧ v.gate.get c = (s.bank.get c).step
      ∧ v.trace = s.trace ++ [.setGate c (s.bank.get c).step]

/-- 42_channel_state.md R172: `GATE c`, its op word, pin and event, its whole effect and frame. -/
def Obligations.GateEmitsTheStepFlag : Prop :=
  ∀ (c : Chan) (s : State),
    encode (.gate c) = 0x80#8 ||| c.code.setWidth 8
    ∧ exec (.gate c) s = .next { s with
        gate := s.gate.set c (s.bank.get c).step
        phase := .next
        trace := s.trace ++ [.setGate c (s.bank.get c).step] }

/-- 42_channel_state.md R175: `RDL c` answers the entry as it stands, in any state, and writes nothing; a channel
outside 1..4 is refused. The answer is an event of the model's record (log 3). -/
def Obligations.RdlAnswersTheSnapshot : Prop :=
  (∀ (c : Chan) (s : State),
    encode (.rdl c) = 0xA0#8 ||| c.code.setWidth 8
    ∧ ∃ a : Status, exec (.rdl c) s = .next { s with trace := s.trace ++ [.answer c a] }
      ∧ a.weight.toInt = (s.bank.get c).prev.toInt
      ∧ a.stepAsserted = (s.bank.get c).step
      ∧ a.isTimeout = (s.bank.get c).lastTo)
  ∧ ∀ (s : State) (rest : List Move), ∀ w ∈ [0xA0#8, 0xA5#8, 0xA6#8, 0xA7#8], s.agenda = .outside w :: rest →
      ∃ r, step s = .refused (.illegalOpWord w r)

/-- 42_channel_state.md R178 as the model carries it (log 6): with `FUSION_PRESENT = 1`, `AMB` sets the override and
nothing else, the gate lines show `GATE[c] or OVR`, the end of the pulse clears it; with 0 there is no such operation. -/
def Obligations.AmbSetsTheOverrideWhereItExists : Prop :=
  encode .amb = 0xE0#8
  ∧ (∀ s : State, s.fusionPresent = true → exec .amb s = .next { s with ovr := true })
  ∧ (∀ s : State, s.fusionPresent = false → exec .amb s = .refused .fusionAbsent)
  ∧ (∀ (s : State) (rest : List Move), s.fusionPresent = false → s.agenda = .outside 0xE0 :: rest →
      step s = .refused (.illegalOpWord 0xE0 .fusionAbsent))
  ∧ (∀ (c : Chan) (s : State), gateLine c s = true ↔ (s.gate.get c = true ∨ s.ovr = true))
  ∧ (∀ (s : State) (rest : List Move), s.agenda = .pulseEnd :: rest →
      step s = .next { s with agenda := rest, ovr := false })

/-- 30_encoding.md R98, R99, R100, R101: the packed formats, field by field. -/
def Obligations.PackedFormatsHoldTheirFields : Prop :=
  (∀ e : Entry, (packEntry e).extractLsb' 0 24 = e.prev ∧ (packEntry e).extractLsb' 24 24 = e.lastVal
    ∧ (packEntry e).getLsbD 48 = e.lastTo ∧ (packEntry e).getLsbD 49 = e.step
    ∧ unpackEntry (packEntry e) = e)
  ∧ (∀ w : BitVec 50, packEntry (unpackEntry w) = w)
  ∧ (∀ r : Status, (packStatus r).extractLsb' 0 32 = r.weight ∧ (packStatus r).getLsbD 32 = r.stepAsserted
    ∧ (packStatus r).getLsbD 33 = r.isTimeout)
  ∧ (∀ (b : Bool) (v : Word24), (packRaw b v).extractLsb' 0 24 = v ∧ (packRaw b v).getLsbD 24 = b)
  ∧ (∀ v : Word24, (sext32 v).toInt = v.toInt ∧ (sext32 v).extractLsb' 0 24 = v
    ∧ ∀ k, 24 ≤ k → k < 32 → (sext32 v).getLsbD k = v.getLsbD 23)

/-! ## SamplingScheduler -/

/-- 43_scheduler.md R187: `CONFIG_OK` holds exactly when all of the listed conditions do. -/
def Obligations.ConfigOkIsTheListedConditions : Prop :=
  ∀ r : CfgRecord, configOk r = true ↔
    (r.clkLine ≠ none
      ∧ (∀ c, r.dataLine.get c ≠ none)
      ∧ (∀ c, r.dataLine.get c ≠ r.clkLine)
      ∧ (∀ c d, c ≠ d → r.dataLine.get c ≠ r.dataLine.get d)
      ∧ (∀ c, r.extra.get c = 1 ∨ r.extra.get c = 2 ∨ r.extra.get c = 3)
      ∧ (∀ c, 1 ≤ r.maxPolls.get c)
      ∧ 0 < r.tickPeriod)

/-- 43_scheduler.md R186: `INIT` within its precondition, its op word, success and failure with their whole effect and
frame. The operand is the record the loader hands over; what `INIT` returns is an event (log 3, log 7). -/
def Obligations.InitLoadsALegalRecordOrFails : Prop :=
  encode .init = 0xB0#8
  ∧ ∀ s : State, s.sched = .idle → s.inited = false → s.cfgErr = false →
      (configOk (offered s) = true → ∃ g : CfgRegs,
        exec .init s = .next { s with
          cfg := g
          inited := true
          sck := false
          trace := s.trace ++ [.lineWrite (offered s).clkLine false, .initResult true] }
        ∧ g.clkLine = (offered s).clkLine ∧ g.dataLine = (offered s).dataLine
        ∧ (∀ c, (g.extra.get c).toNat = (offered s).extra.get c)
        ∧ g.maxPolls = (offered s).maxPolls ∧ g.threshold = (offered s).threshold
        ∧ g.tickPeriod = (offered s).tickPeriod)
      ∧ (configOk (offered s) = false → exec .init s = .next { s with
          cfgErr := true
          trace := s.trace ++ [.raised .configurationError, .initResult false] })

/-- 43_scheduler.md R188: outside its precondition `INIT` is refused; a tick before a successful `INIT` is ignored. -/
def Obligations.SecondInitIsRefused : Prop :=
  (∀ s : State, (s.inited = true ∨ s.cfgErr = true ∨ s.sched = .running) →
    exec .init s = .refused .initOutsidePrecondition)
  ∧ ∀ s : State, s.inited = false → exec .tick s = .next s

/-- 43_scheduler.md R190: `TICK`, its op word; accepted exactly under the listed condition, else nothing. -/
def Obligations.TickStartsACycleOrIsDropped : Prop :=
  encode .tick = 0xC0#8
  ∧ (∀ s : State, s.phase = .susp → s.inited = true → s.cfgErr = false → s.stopped = false → s.stopReq = false →
      exec .tick s = .next { s with sched := .running, ch := 1, phase := .clkl })
  ∧ (∀ s : State,
      (s.phase ≠ .susp ∨ s.inited = false ∨ s.cfgErr = true ∨ s.stopped = true ∨ s.stopReq = true) →
      exec .tick s = .next s)

/-- 43_scheduler.md R193: `NEXT`, its op word, both cases with their whole effect and frame. -/
def Obligations.NextMovesToTheNextChannel : Prop :=
  encode .next = 0x90#8
  ∧ (∀ s : State, s.ch.toNat < 4 → exec .next s = .next { s with ch := s.ch + 1, phase := .clkl })
  ∧ (∀ s : State, 4 ≤ s.ch.toNat → exec .next s = .next { s with ch := 0, phase := .susp })

/-- 43_scheduler.md R194: `SUSP`, its op word: everything holds, but a stop request is honoured. -/
def Obligations.SuspHoldsEverything : Prop :=
  encode .susp = 0x00#8
  ∧ (∀ s : State, s.phase = .susp → s.stopReq = false → exec .susp s = .next s)
  ∧ (∀ s : State, s.phase = .susp → s.stopReq = true → exec .susp s = .next { s with stopped := true })
  ∧ (∀ s : State, s.phase ≠ .susp → exec .susp s = .next s)

/-- 43_scheduler.md R197: `STOP` raises the request in any state and changes nothing else; the worker honours it as a
step of its own at `SUSP`; from the request on no tick is accepted. -/
def Obligations.StopIsHonouredAtTheBoundary : Prop :=
  encode .stop = 0xD0#8
  ∧ (∀ s : State, exec .stop s = .next { s with stopReq := true })
  ∧ (∀ s : State, s.agenda = [] → s.stopReq = true → s.phase = .susp → step s = .next { s with stopped := true })
  ∧ (∀ (s : State), s.stopReq = true → exec .tick s = .next s)

/-! ## Reset and the invariant -/

/-- 10_state.md R51, R46, 42_channel_state.md R178: every reset value the spec states, with `OVR` and this hardware's
`FUSION_PRESENT` (the values R51 leaves unspecified are log 2). -/
def Obligations.ResetValuesAreAsStated : Prop :=
  (∀ c, (State.reset.bank.get c).prev = 0 ∧ (State.reset.bank.get c).lastTo = true
    ∧ (State.reset.bank.get c).step = false ∧ State.reset.gate.get c = false
    ∧ State.reset.cfg.dataLine.get c = none ∧ State.reset.cfg.extra.get c = 1)
  ∧ State.reset.sck = false ∧ State.reset.sched = .idle ∧ State.reset.ch = 0 ∧ State.reset.phase = .susp
  ∧ State.reset.bitCnt = 0 ∧ State.reset.gCnt = 0 ∧ State.reset.pollCnt = 0 ∧ State.reset.rdy = false
  ∧ State.reset.smpTo = true ∧ State.reset.inited = false ∧ State.reset.cfgErr = false
  ∧ State.reset.stopReq = false ∧ State.reset.stopped = false ∧ State.reset.cfg.clkLine = none
  ∧ State.reset.ovr = false ∧ State.reset.fusionPresent = false

/-- The invariant holds at reset. -/
def Obligations.ResetMeetsTheInvariant : Prop := Invariant State.reset

/-- Every step of every agent keeps the invariant: the clock rests low, the position is legal, a cycle runs only on a
legal configuration, the preconditions of `SHB`, `GPL` and `CONV` hold where they are performed, a Value entry's two
numbers agree, and a gate differs from its flag only between `UPD` and `GATE`. -/
def Obligations.EveryStepKeepsTheInvariant : Prop :=
  ∀ s t : State, Invariant s → step s = .next t → Invariant t

/-- 70_reset_and_hazards.md R272 (b): the worker never stops; and only a move no agent has ends a run. -/
def Obligations.TheWorkerAlwaysMoves : Prop :=
  ∀ s : State, Invariant s →
    (s.agenda = [] → ∃ t, step s = .next t)
    ∧ (∀ rest, s.agenda = .worker :: rest → ∃ t, step s = .next t)
    ∧ (∀ w rest i, s.agenda = .outside w :: rest → decode s.fusionPresent w = .ok i → i.agent ≠ .worker →
        (i = .init → s.inited = false ∧ s.cfgErr = false) → ∃ t, step s = .next t)

/-! ## Rules of the whole machine -/

/-- 10_state.md R39, R48: every flag has the writers its table lists, and none of the sticky ones is ever cleared. -/
def Obligations.EveryFlagHasItsWriters : Prop :=
  ∀ (i : Instr) (s t : State), exec i s = .next t →
    (∀ c, (t.bank.get c).step ≠ (s.bank.get c).step → i = .upd c)
    ∧ (∀ c, (t.bank.get c).lastTo ≠ (s.bank.get c).lastTo → i = .upd c ∧ t.phase = .gate
        ∧ (t.bank.get c).lastTo = s.smpTo)
    ∧ (t.rdy ≠ s.rdy → ∃ c, i = .wrdy c)
    ∧ (t.smpTo = true → s.smpTo = false → ∃ c, i = .wrdy c)
    ∧ (t.smpTo = false → s.smpTo = true → i = .conv)
    ∧ (t.ns ≠ s.ns → ∃ c, i = .dec c)
    ∧ (t.sched ≠ s.sched → i = .tick ∧ t.sched = .running)
    ∧ (t.inited ≠ s.inited → i = .init ∧ t.inited = true)
    ∧ (t.cfgErr ≠ s.cfgErr → i = .init ∧ t.cfgErr = true)
    ∧ (t.stopReq ≠ s.stopReq → i = .stop ∧ t.stopReq = true)
    ∧ (t.stopped ≠ s.stopped → i = .susp ∧ t.stopped = true ∧ s.stopReq = true ∧ s.phase = .susp)

/-- 42_channel_state.md R169: `STEP[c]` changes only in a `UPD c` that follows a Value sample; `GATE[c]` changes only
in a `GATE c`. -/
def Obligations.StepAndGateChangeOnlyInTheirOperations : Prop :=
  ∀ (s t : State) (c : Chan), Invariant s → step s = .next t →
    ((t.bank.get c).step ≠ (s.bank.get c).step →
      nextMove s = .worker ∧ workerWord s = encode (.upd c) ∧ s.smpTo = false)
    ∧ (t.gate.get c ≠ s.gate.get c → nextMove s = .worker ∧ workerWord s = encode (.gate c))

/-- 70_reset_and_hazards.md R264: no agent other than the worker writes the bank, the gates or the datapath registers;
10_state.md R52, 43_scheduler.md R190, R198, 60_exceptions.md R220: nor the sequencer's position but for a tick at
`SUSP`. -/
def Obligations.TheWorkerIsTheSoleWriter : Prop :=
  ∀ (i : Instr) (s t : State), i.agent ≠ .worker → exec i s = .next t →
    t.bank = s.bank ∧ t.gate = s.gate ∧ t.acc = s.acc ∧ t.bitCnt = s.bitCnt ∧ t.gCnt = s.gCnt
    ∧ t.pollCnt = s.pollCnt ∧ t.rdy = s.rdy ∧ t.smpTo = s.smpTo ∧ t.smpVal = s.smpVal ∧ t.np = s.np ∧ t.ns = s.ns
    ∧ t.amps = s.amps
    ∧ ((t.phase = s.phase ∧ t.ch = s.ch) ∨ (i = .tick ∧ s.phase = .susp))

/-- 10_state.md R24: an operation that is not on channel `d` neither reads nor writes the entry of `d`. -/
def Obligations.OtherEntriesAreNeitherReadNorWritten : Prop :=
  ∀ (i : Instr) (d : Chan) (e : Entry) (s t : State),
    i ≠ .dec d → i ≠ .upd d → i ≠ .gate d → i ≠ .rdl d → exec i s = .next t →
    t.bank.get d = s.bank.get d
    ∧ exec i { s with bank := s.bank.set d e } = .next { t with bank := t.bank.set d e }

/-- 10_state.md R47, 70_reset_and_hazards.md R267: the configuration registers change only in the one successful
`INIT`, while Idle; R46: `FUSION_PRESENT` never changes, in any run. -/
def Obligations.ConfigurationIsFrozenAfterInit : Prop :=
  (∀ (i : Instr) (s t : State), exec i s = .next t → t.cfg ≠ s.cfg →
    i = .init ∧ s.sched = .idle ∧ s.inited = false ∧ s.cfgErr = false ∧ configOk (offered s) = true
      ∧ t.inited = true)
  ∧ (∀ (n : Nat) (s t : State), s.inited = true → run n s = .next t →
      t.cfg = s.cfg ∧ t.inited = true)
  ∧ (∀ (n : Nat) (s t : State), run n s = .next t → t.fusionPresent = s.fusionPresent)

/-- 43_scheduler.md R198: while a cycle is in progress no outside operation changes anything but the request, the
override and the record. -/
def Obligations.OutsideMovesDoNotDisturbACycle : Prop :=
  ∀ (i : Instr) (s t : State), Invariant s → s.phase ≠ .susp → i.agent ≠ .worker → exec i s = .next t →
    t = { s with stopReq := t.stopReq, ovr := t.ovr, trace := t.trace }

/-- 20_memory.md R64, R65, 70_reset_and_hazards.md R263: what each operation may append to the record: the clock line
is the only bus line written, by the worker or by `INIT`; the data lines are read only by `WRDY c` and `SHB c`; a gate
is set only by `GATE c`; an answer is `RDL c`'s. -/
def Obligations.EachOperationReachesItsLinesOnly : Prop :=
  ∀ (i : Instr) (s t : State), exec i s = .next t → ∃ es, t.trace = s.trace ++ es
    ∧ (∀ l v, Event.lineWrite l v ∈ es →
        l = t.cfg.clkLine ∧ (i = .clkl ∨ (∃ c, i = .shb c) ∨ i = .gpl ∨ i = .init))
    ∧ (∀ l b, Event.lineRead l b ∈ es →
        ∃ c, l = s.cfg.dataLine.get c ∧ (i = .wrdy c ∨ i = .shb c))
    ∧ (∀ c v, Event.setGate c v ∈ es → i = .gate c)
    ∧ (∀ c a, Event.answer c a ∈ es → i = .rdl c)
    ∧ (∀ b, Event.initResult b ∈ es → i = .init)

/-- 60_exceptions.md R215, R218: the conditions, their codes, who raises each and what is recorded;
ProtocolTimingViolation is never raised. -/
def Obligations.ConditionsAreRaisedAsListed : Prop :=
  (Condition.none.code = 0 ∧ (∀ c, (Condition.deviceNotReady c).code = 1) ∧ Condition.configurationError.code = 2
    ∧ Condition.protocolTimingViolation.code = 3)
  ∧ ∀ (i : Instr) (s t : State), exec i s = .next t → ∃ es, t.trace = s.trace ++ es
    ∧ ∀ k, Event.raised k ∈ es →
      (∃ c, k = .deviceNotReady c ∧ i = .wrdy c ∧ t.rdy = false ∧ t.smpTo = true
          ∧ ∀ j, j < s.cfg.maxPolls.get c → (s.amps.get c).nth c j = true)
      ∨ (k = .configurationError ∧ i = .init ∧ t.cfgErr = true ∧ configOk (offered s) = false)

/-! ## Whole acquisitions and cycles -/

/-- 40_adc_acquire.md R132, R133, R134, R136: one whole acquisition of channel `c` by the worker alone, both outcomes,
with every field of the state it leaves and its exact line trace. -/
def Obligations.AcquisitionGivesTheSampleAndItsTrace : Prop :=
  ∀ (c : Chan) (s : State) (a : Amp) (m e : Nat), s.agenda = [] → s.phase = .clkl → s.ch = c.code →
    a = s.amps.get c → m = s.cfg.maxPolls.get c → 1 ≤ m → e = (s.cfg.extra.get c).toNat → 1 ≤ e →
    (∀ j, a.firstLow c m = some j →
      run (27 + e) s = .next { s with
        sck := false
        phase := .dec
        acc := (a.after (j + 1)).word c
        bitCnt := 24
        gCnt := s.cfg.extra.get c
        pollCnt := j
        rdy := true
        smpTo := false
        smpVal := conv24 ((a.after (j + 1)).word c)
        amps := s.amps.set c (a.after (j + 25))
        trace := s.trace ++ acqTrace c s.cfg a m })
    ∧ (a.firstLow c m = none →
      run 2 s = .next { s with
        sck := false
        phase := .dec
        pollCnt := m
        rdy := false
        smpTo := true
        amps := s.amps.set c (a.after m)
        trace := s.trace ++ acqTrace c s.cfg a m ++ [.raised (.deviceNotReady c)] })

/-- 40_adc_acquire.md R133, R134, R136: what one whole acquisition by the worker alone appends to the record: the number
of line events and of clock pulses, both outcomes. `j` is the number of high polls before the low one. -/
def Obligations.AcquisitionCountsEventsAndPulses : Prop :=
  ∀ (c : Chan) (s : State) (a : Amp) (m e : Nat), s.agenda = [] → s.phase = .clkl → s.ch = c.code →
    a = s.amps.get c → m = s.cfg.maxPolls.get c → 1 ≤ m → e = (s.cfg.extra.get c).toNat → 1 ≤ e →
    (∀ j, a.firstLow c m = some j → ∃ t es, run (27 + e) s = .next t ∧ t.trace = s.trace ++ es
      ∧ (lineEvents es).length = 1 + (j + 1) + 72 + 2 * e
      ∧ es.countP (fun x => decide (x = .lineWrite s.cfg.clkLine true)) = 24 + e
      ∧ es.countP (fun x => decide (x = .lineWrite s.cfg.clkLine false)) = 1 + 24 + e)
    ∧ (a.firstLow c m = none → ∃ t es, run 2 s = .next t ∧ t.trace = s.trace ++ es
      ∧ (lineEvents es).length = 1 + m
      ∧ es.countP (fun x => decide (x = .lineWrite s.cfg.clkLine true)) = 0
      ∧ es.countP (fun x => decide (x = .lineWrite s.cfg.clkLine false)) = 1)

/-- 43_scheduler.md R196, R202, 20_memory.md R74, 30_encoding.md R109: one channel's turn by the worker alone: the
entry, the gate, the events in order, the operations performed and their number. -/
def Obligations.ChannelTurnUpdatesItsChannelOnly : Prop :=
  ∀ (c : Chan) (s : State) (a : Amp) (m e : Nat) (x : RawSample), s.agenda = [] → s.phase = .clkl →
    s.ch = c.code → a = s.amps.get c → m = s.cfg.maxPolls.get c → 1 ≤ m → e = (s.cfg.extra.get c).toNat → 1 ≤ e →
    x = a.sample c m →
    ∃ t, run (if x = .timeout then 6 else 31 + e) s = .next t
      ∧ performed (if x = .timeout then 6 else 31 + e) s = encodeTrace (chanOps c (decide (x ≠ .timeout)) e)
      ∧ t.bank = s.bank.set c ((s.bank.get c).afterCycle s.cfg.threshold x)
      ∧ t.gate = s.gate.set c ((s.bank.get c).afterCycle s.cfg.threshold x).step
      ∧ t.trace = s.trace ++ acqTrace c s.cfg a m
          ++ (if x = .timeout then [.raised (.deviceNotReady c)] else [])
          ++ [.setGate c ((s.bank.get c).afterCycle s.cfg.threshold x).step]
      ∧ (∀ d, d ≠ c → t.amps.get d = s.amps.get d)
      ∧ t.cfg = s.cfg ∧ t.agenda = [] ∧ t.sck = false
      ∧ (c ≠ .c4 → t.phase = .clkl ∧ t.ch = s.ch + 1)
      ∧ (c = .c4 → t.phase = .susp ∧ t.ch = 0)

/-- 43_scheduler.md R192, R196, R202: a whole cycle by the worker alone, as a function of the bank, the configuration
and the levels the four data lines show; it always ends, in 24 to 136 operations, back at `SUSP`. -/
def Obligations.CycleIsAFunctionOfBankConfigAndLevels : Prop :=
  ∀ (s : State) (x : Chan → RawSample), s.agenda = [] → s.phase = .clkl → s.ch = 1 →
    (∀ c, s.cfg.extra.get c ≠ 0) → (∀ c, 1 ≤ s.cfg.maxPolls.get c) →
    (∀ c, x c = (s.amps.get c).sample c (s.cfg.maxPolls.get c)) →
    ∃ n t, 24 ≤ n ∧ n ≤ 136 ∧ run n s = .next t ∧ t.phase = .susp ∧ t.ch = 0 ∧ t.sck = false
      ∧ t.cfg = s.cfg ∧ t.agenda = []
      ∧ (∀ c, t.bank.get c = (s.bank.get c).afterCycle s.cfg.threshold (x c))
      ∧ (∀ c, t.gate.get c = ((s.bank.get c).afterCycle s.cfg.threshold (x c)).step)
      ∧ gateEvents t.trace = gateEvents s.trace
          ++ [Chan.c1, .c2, .c3, .c4].map
              (fun c => (c, ((s.bank.get c).afterCycle s.cfg.threshold (x c)).step))
      ∧ performed n s = encodeTrace (cycleOps
          ⟨decide (x .c1 ≠ .timeout), decide (x .c2 ≠ .timeout), decide (x .c3 ≠ .timeout), decide (x .c4 ≠ .timeout)⟩
          (s.cfg.extra.map BitVec.toNat))

/-- 42_channel_state.md R171, 40_adc_acquire.md R137: the source's independence property for every channel `d`:
whatever the data line of `d` shows in a cycle, a Timeout or any word, the entries and gates of the other channels at
the end of the cycle are the same. -/
def Obligations.ChannelsAreIndependentInACycle : Prop :=
  ∀ (s : State) (d : Chan) (a : Amp), s.agenda = [] → s.phase = .clkl → s.ch = 1 →
    (∀ c, s.cfg.extra.get c ≠ 0) →
    ∃ n n' t t', run n s = .next t ∧ run n' { s with amps := s.amps.set d a } = .next t'
      ∧ t.phase = .susp ∧ t'.phase = .susp
      ∧ ∀ c, c ≠ d → t.bank.get c = t'.bank.get c ∧ t.gate.get c = t'.gate.get c

/-- 43_scheduler.md R197 (b), (c): from a stop request at rest on, whatever the agents do, no cycle starts: the bank,
the gates and the clock hold, and `STOPPED`, once set, stays. -/
def Obligations.AfterAStopNoCycleRuns : Prop :=
  ∀ (n : Nat) (s t : State), s.stopReq = true → s.phase = .susp → s.sck = false → run n s = .next t →
    t.stopReq = true ∧ t.phase = .susp ∧ t.ch = s.ch ∧ t.sck = false ∧ t.bank = s.bank ∧ t.gate = s.gate
    ∧ (s.stopped = true → t.stopped = true)

/-- 60_exceptions.md R217: a ConfigurationError is for ever: `CFG_ERR` stays, no tick is accepted, `SCHED` stays as it
was, the bank, the gates, the clock and the configuration hold, and `RDL` still answers. -/
def Obligations.ConfigurationErrorIsForEver : Prop :=
  ∀ (n : Nat) (s t : State), s.cfgErr = true → s.phase = .susp → run n s = .next t →
    t.cfgErr = true ∧ ¬ Good t ∧ t.phase = .susp ∧ t.sched = s.sched ∧ t.sck = s.sck ∧ t.bank = s.bank
    ∧ t.gate = s.gate ∧ t.cfg = s.cfg
    ∧ exec .tick t = .next t
    ∧ ∀ c, exec (.rdl c) t = .next { t with trace := t.trace ++ [.answer c (statusOf (s.bank.get c))] }

/-! ## Fairness -/

/-- 70_reset_and_hazards.md R272: (c) each `WRDY` ends within `MAX_POLLS[c]` polls; a configured block whose agents keep
to their moves never stops; under (b) every cycle ends; under (a) and (b) cycles recur for ever, until a stop is requested
(the moments (a) is about have no stop flag); where no tick comes, the block rests in `SUSP` for ever, no fault. -/
def Obligations.FairnessMakesCyclesRecurForEver : Prop :=
  (∀ (c : Chan) (s : State), 1 ≤ s.cfg.maxPolls.get c →
    ∃ k t, 1 ≤ k ∧ k ≤ s.cfg.maxPolls.get c ∧ exec (.wrdy c) s = .next t
      ∧ t.amps = s.amps.set c ((s.amps.get c).after k))
  ∧ (∀ (e : Nat → Move) (s : State), Invariant s → s.inited = true → AllMoves (Rightful s.fusionPresent) e s →
      (∀ n, ∃ u, runUnder e n s = .next u)
      ∧ (WorkerFair e s → ∀ n, ∃ m v, n ≤ m ∧ runUnder e m s = .next v ∧ v.phase = .susp)
      ∧ (Fair e s → ∀ n, ∃ m, n ≤ m ∧ (TickAcceptedAt e s m ∨ StopRequestedAt e s m)))
  ∧ (∀ (e : Nat → Move) (s : State), s.inited = true → s.phase = .susp → s.ch = 0 →
      AllMoves (Rightful s.fusionPresent) e s → AllMoves (· ≠ .outside (encode .tick)) e s →
      ∀ n, ∃ u, runUnder e n s = .next u ∧ u.phase = .susp ∧ u.ch = 0 ∧ u.sck = s.sck ∧ u.bank = s.bank
        ∧ u.gate = s.gate)
end

