-- ==== Sys2Proof/Laws/PerCh.lean ====
section
/-! SUPPORT. The small laws of per-channel registers and of the amplifier environments. -/

namespace Sys2Proof

@[simp] theorem PerCh.get_set_self {α : Type} (v : PerCh α) (c : Chan) (x : α) : (v.set c x).get c = x := by
  cases c <;> rfl

@[simp] theorem PerCh.get_set_ne {α : Type} (v : PerCh α) {c d : Chan} (x : α) (h : d ≠ c) :
    (v.set c x).get d = v.get d := by
  cases c <;> cases d <;> first | rfl | exact absurd rfl h

theorem PerCh.get_set {α : Type} (v : PerCh α) (c d : Chan) (x : α) :
    (v.set c x).get d = if d = c then x else v.get d := by
  cases c <;> cases d <;> rfl

@[simp] theorem PerCh.set_set {α : Type} (v : PerCh α) (c : Chan) (x y : α) : (v.set c x).set c y = v.set c y := by
  cases c <;> rfl

@[simp] theorem PerCh.set_get {α : Type} (v : PerCh α) (c : Chan) : v.set c (v.get c) = v := by
  cases c <;> rfl

theorem PerCh.ext_get {α : Type} {v w : PerCh α} (h : ∀ c, v.get c = w.get c) : v = w := by
  have h1 := h .c1
  have h2 := h .c2
  have h3 := h .c3
  have h4 := h .c4
  cases v
  cases w
  simp_all [PerCh.get]

@[simp] theorem PerCh.get_map {α β : Type} (f : α → β) (v : PerCh α) (c : Chan) : (v.map f).get c = f (v.get c) := by
  cases c <;> rfl

theorem PerCh.mem_toList {α : Type} {v : PerCh α} {x : α} : x ∈ v.toList ↔ ∃ c, v.get c = x := by
  constructor
  · intro h
    simp only [PerCh.toList, List.mem_cons, List.not_mem_nil, or_false] at h
    rcases h with h | h | h | h
    · exact ⟨.c1, h.symm⟩
    · exact ⟨.c2, h.symm⟩
    · exact ⟨.c3, h.symm⟩
    · exact ⟨.c4, h.symm⟩
  · rintro ⟨c, rfl⟩
    cases c <;> simp [PerCh.toList, PerCh.get]

/-- A claim about every channel is four claims. -/
theorem Chan.forall_iff {P : Chan → Prop} : (∀ c, P c) ↔ P .c1 ∧ P .c2 ∧ P .c3 ∧ P .c4 := by
  constructor
  · exact fun h => ⟨h .c1, h .c2, h .c3, h .c4⟩
  · rintro ⟨h1, h2, h3, h4⟩ c
    cases c <;> assumption

theorem Chan.code_injective {c d : Chan} (h : c.code = d.code) : c = d := by
  cases c <;> cases d <;> first | rfl | exact absurd h (by decide)

@[simp] theorem channelOf_code (c : Chan) : channelOf c.code = .ok c := by
  cases c <;> rfl

namespace Machine

@[simp] theorem Amp.after_zero (a : Amp) : a.after 0 = a := rfl

theorem Amp.after_succ (a : Amp) (n : Nat) : a.after (n + 1) = (a.after n).advance := rfl

theorem Amp.advance_after (a : Amp) (n : Nat) : a.advance.after n = a.after (n + 1) := by
  induction n with
  | zero => rfl
  | succ n ih =>
    rw [Amp.after_succ, ih]
    rfl

theorem Amp.after_after (a : Amp) (m n : Nat) : (a.after m).after n = a.after (m + n) := by
  induction n with
  | zero => rfl
  | succ n ih => rw [Amp.after_succ, ih, ← Nat.add_assoc, Amp.after_succ]

theorem Amp.nth_zero (c : Chan) (a : Amp) : a.nth c 0 = a.level c := rfl

theorem Amp.advance_nth (c : Chan) (a : Amp) (n : Nat) : a.advance.nth c n = a.nth c (n + 1) := by
  unfold Amp.nth
  rw [Amp.advance_after]

end Machine

end Sys2Proof
end

