-- ==== Sys2Proof/Laws/State.lean ====
section
/-! SUPPORT. What each named operation does to each field of the state, one lemma a field. -/

namespace Sys2Proof.Machine

@[simp] theorem record_bank (e : Event) (s : State) : (record e s).bank = s.bank := rfl
@[simp] theorem record_gate (e : Event) (s : State) : (record e s).gate = s.gate := rfl
@[simp] theorem record_sck (e : Event) (s : State) : (record e s).sck = s.sck := rfl
@[simp] theorem record_sched (e : Event) (s : State) : (record e s).sched = s.sched := rfl
@[simp] theorem record_ch (e : Event) (s : State) : (record e s).ch = s.ch := rfl
@[simp] theorem record_phase (e : Event) (s : State) : (record e s).phase = s.phase := rfl
@[simp] theorem record_acc (e : Event) (s : State) : (record e s).acc = s.acc := rfl
@[simp] theorem record_bitCnt (e : Event) (s : State) : (record e s).bitCnt = s.bitCnt := rfl
@[simp] theorem record_gCnt (e : Event) (s : State) : (record e s).gCnt = s.gCnt := rfl
@[simp] theorem record_pollCnt (e : Event) (s : State) : (record e s).pollCnt = s.pollCnt := rfl
@[simp] theorem record_rdy (e : Event) (s : State) : (record e s).rdy = s.rdy := rfl
@[simp] theorem record_smpTo (e : Event) (s : State) : (record e s).smpTo = s.smpTo := rfl
@[simp] theorem record_smpVal (e : Event) (s : State) : (record e s).smpVal = s.smpVal := rfl
@[simp] theorem record_np (e : Event) (s : State) : (record e s).np = s.np := rfl
@[simp] theorem record_ns (e : Event) (s : State) : (record e s).ns = s.ns := rfl
@[simp] theorem record_inited (e : Event) (s : State) : (record e s).inited = s.inited := rfl
@[simp] theorem record_cfgErr (e : Event) (s : State) : (record e s).cfgErr = s.cfgErr := rfl
@[simp] theorem record_stopReq (e : Event) (s : State) : (record e s).stopReq = s.stopReq := rfl
@[simp] theorem record_stopped (e : Event) (s : State) : (record e s).stopped = s.stopped := rfl
@[simp] theorem record_cfg (e : Event) (s : State) : (record e s).cfg = s.cfg := rfl
@[simp] theorem record_fusionPresent (e : Event) (s : State) : (record e s).fusionPresent = s.fusionPresent := rfl
@[simp] theorem record_ovr (e : Event) (s : State) : (record e s).ovr = s.ovr := rfl
@[simp] theorem record_amps (e : Event) (s : State) : (record e s).amps = s.amps := rfl
@[simp] theorem record_offer (e : Event) (s : State) : (record e s).offer = s.offer := rfl
@[simp] theorem record_agenda (e : Event) (s : State) : (record e s).agenda = s.agenda := rfl
@[simp] theorem record_trace (e : Event) (s : State) : (record e s).trace = s.trace ++ [e] := rfl

@[simp] theorem lineWrite_bank (l : LineId) (v : Level) (s : State) : (lineWrite l v s).bank = s.bank := rfl
@[simp] theorem lineWrite_gate (l : LineId) (v : Level) (s : State) : (lineWrite l v s).gate = s.gate := rfl
@[simp] theorem lineWrite_sck (l : LineId) (v : Level) (s : State) : (lineWrite l v s).sck = if l = s.cfg.clkLine then v else s.sck := rfl
@[simp] theorem lineWrite_sched (l : LineId) (v : Level) (s : State) : (lineWrite l v s).sched = s.sched := rfl
@[simp] theorem lineWrite_ch (l : LineId) (v : Level) (s : State) : (lineWrite l v s).ch = s.ch := rfl
@[simp] theorem lineWrite_phase (l : LineId) (v : Level) (s : State) : (lineWrite l v s).phase = s.phase := rfl
@[simp] theorem lineWrite_acc (l : LineId) (v : Level) (s : State) : (lineWrite l v s).acc = s.acc := rfl
@[simp] theorem lineWrite_bitCnt (l : LineId) (v : Level) (s : State) : (lineWrite l v s).bitCnt = s.bitCnt := rfl
@[simp] theorem lineWrite_gCnt (l : LineId) (v : Level) (s : State) : (lineWrite l v s).gCnt = s.gCnt := rfl
@[simp] theorem lineWrite_pollCnt (l : LineId) (v : Level) (s : State) : (lineWrite l v s).pollCnt = s.pollCnt := rfl
@[simp] theorem lineWrite_rdy (l : LineId) (v : Level) (s : State) : (lineWrite l v s).rdy = s.rdy := rfl
@[simp] theorem lineWrite_smpTo (l : LineId) (v : Level) (s : State) : (lineWrite l v s).smpTo = s.smpTo := rfl
@[simp] theorem lineWrite_smpVal (l : LineId) (v : Level) (s : State) : (lineWrite l v s).smpVal = s.smpVal := rfl
@[simp] theorem lineWrite_np (l : LineId) (v : Level) (s : State) : (lineWrite l v s).np = s.np := rfl
@[simp] theorem lineWrite_ns (l : LineId) (v : Level) (s : State) : (lineWrite l v s).ns = s.ns := rfl
@[simp] theorem lineWrite_inited (l : LineId) (v : Level) (s : State) : (lineWrite l v s).inited = s.inited := rfl
@[simp] theorem lineWrite_cfgErr (l : LineId) (v : Level) (s : State) : (lineWrite l v s).cfgErr = s.cfgErr := rfl
@[simp] theorem lineWrite_stopReq (l : LineId) (v : Level) (s : State) : (lineWrite l v s).stopReq = s.stopReq := rfl
@[simp] theorem lineWrite_stopped (l : LineId) (v : Level) (s : State) : (lineWrite l v s).stopped = s.stopped := rfl
@[simp] theorem lineWrite_cfg (l : LineId) (v : Level) (s : State) : (lineWrite l v s).cfg = s.cfg := rfl
@[simp] theorem lineWrite_fusionPresent (l : LineId) (v : Level) (s : State) : (lineWrite l v s).fusionPresent = s.fusionPresent := rfl
@[simp] theorem lineWrite_ovr (l : LineId) (v : Level) (s : State) : (lineWrite l v s).ovr = s.ovr := rfl
@[simp] theorem lineWrite_amps (l : LineId) (v : Level) (s : State) : (lineWrite l v s).amps = s.amps := rfl
@[simp] theorem lineWrite_offer (l : LineId) (v : Level) (s : State) : (lineWrite l v s).offer = s.offer := rfl
@[simp] theorem lineWrite_agenda (l : LineId) (v : Level) (s : State) : (lineWrite l v s).agenda = s.agenda := rfl
@[simp] theorem lineWrite_trace (l : LineId) (v : Level) (s : State) : (lineWrite l v s).trace = s.trace ++ [.lineWrite l v] := rfl

@[simp] theorem pulse_bank (s : State) : (pulse s).bank = s.bank := rfl
@[simp] theorem pulse_gate (s : State) : (pulse s).gate = s.gate := rfl
@[simp] theorem pulse_sched (s : State) : (pulse s).sched = s.sched := rfl
@[simp] theorem pulse_ch (s : State) : (pulse s).ch = s.ch := rfl
@[simp] theorem pulse_phase (s : State) : (pulse s).phase = s.phase := rfl
@[simp] theorem pulse_acc (s : State) : (pulse s).acc = s.acc := rfl
@[simp] theorem pulse_bitCnt (s : State) : (pulse s).bitCnt = s.bitCnt := rfl
@[simp] theorem pulse_gCnt (s : State) : (pulse s).gCnt = s.gCnt := rfl
@[simp] theorem pulse_pollCnt (s : State) : (pulse s).pollCnt = s.pollCnt := rfl
@[simp] theorem pulse_rdy (s : State) : (pulse s).rdy = s.rdy := rfl
@[simp] theorem pulse_smpTo (s : State) : (pulse s).smpTo = s.smpTo := rfl
@[simp] theorem pulse_smpVal (s : State) : (pulse s).smpVal = s.smpVal := rfl
@[simp] theorem pulse_np (s : State) : (pulse s).np = s.np := rfl
@[simp] theorem pulse_ns (s : State) : (pulse s).ns = s.ns := rfl
@[simp] theorem pulse_inited (s : State) : (pulse s).inited = s.inited := rfl
@[simp] theorem pulse_cfgErr (s : State) : (pulse s).cfgErr = s.cfgErr := rfl
@[simp] theorem pulse_stopReq (s : State) : (pulse s).stopReq = s.stopReq := rfl
@[simp] theorem pulse_stopped (s : State) : (pulse s).stopped = s.stopped := rfl
@[simp] theorem pulse_cfg (s : State) : (pulse s).cfg = s.cfg := rfl
@[simp] theorem pulse_fusionPresent (s : State) : (pulse s).fusionPresent = s.fusionPresent := rfl
@[simp] theorem pulse_ovr (s : State) : (pulse s).ovr = s.ovr := rfl
@[simp] theorem pulse_amps (s : State) : (pulse s).amps = s.amps := rfl
@[simp] theorem pulse_offer (s : State) : (pulse s).offer = s.offer := rfl
@[simp] theorem pulse_agenda (s : State) : (pulse s).agenda = s.agenda := rfl
@[simp] theorem pulse_trace (s : State) : (pulse s).trace = s.trace ++ [.lineWrite s.cfg.clkLine true] ++ [.lineWrite s.cfg.clkLine false] := rfl

@[simp] theorem afterRead_bank (c : Chan) (s : State) : (afterRead c s).bank = s.bank := rfl
@[simp] theorem afterRead_gate (c : Chan) (s : State) : (afterRead c s).gate = s.gate := rfl
@[simp] theorem afterRead_sck (c : Chan) (s : State) : (afterRead c s).sck = s.sck := rfl
@[simp] theorem afterRead_sched (c : Chan) (s : State) : (afterRead c s).sched = s.sched := rfl
@[simp] theorem afterRead_ch (c : Chan) (s : State) : (afterRead c s).ch = s.ch := rfl
@[simp] theorem afterRead_phase (c : Chan) (s : State) : (afterRead c s).phase = s.phase := rfl
@[simp] theorem afterRead_acc (c : Chan) (s : State) : (afterRead c s).acc = s.acc := rfl
@[simp] theorem afterRead_bitCnt (c : Chan) (s : State) : (afterRead c s).bitCnt = s.bitCnt := rfl
@[simp] theorem afterRead_gCnt (c : Chan) (s : State) : (afterRead c s).gCnt = s.gCnt := rfl
@[simp] theorem afterRead_pollCnt (c : Chan) (s : State) : (afterRead c s).pollCnt = s.pollCnt := rfl
@[simp] theorem afterRead_rdy (c : Chan) (s : State) : (afterRead c s).rdy = s.rdy := rfl
@[simp] theorem afterRead_smpTo (c : Chan) (s : State) : (afterRead c s).smpTo = s.smpTo := rfl
@[simp] theorem afterRead_smpVal (c : Chan) (s : State) : (afterRead c s).smpVal = s.smpVal := rfl
@[simp] theorem afterRead_np (c : Chan) (s : State) : (afterRead c s).np = s.np := rfl
@[simp] theorem afterRead_ns (c : Chan) (s : State) : (afterRead c s).ns = s.ns := rfl
@[simp] theorem afterRead_inited (c : Chan) (s : State) : (afterRead c s).inited = s.inited := rfl
@[simp] theorem afterRead_cfgErr (c : Chan) (s : State) : (afterRead c s).cfgErr = s.cfgErr := rfl
@[simp] theorem afterRead_stopReq (c : Chan) (s : State) : (afterRead c s).stopReq = s.stopReq := rfl
@[simp] theorem afterRead_stopped (c : Chan) (s : State) : (afterRead c s).stopped = s.stopped := rfl
@[simp] theorem afterRead_cfg (c : Chan) (s : State) : (afterRead c s).cfg = s.cfg := rfl
@[simp] theorem afterRead_fusionPresent (c : Chan) (s : State) : (afterRead c s).fusionPresent = s.fusionPresent := rfl
@[simp] theorem afterRead_ovr (c : Chan) (s : State) : (afterRead c s).ovr = s.ovr := rfl
@[simp] theorem afterRead_amps (c : Chan) (s : State) : (afterRead c s).amps = s.amps.set c (s.amps.get c).advance := rfl
@[simp] theorem afterRead_offer (c : Chan) (s : State) : (afterRead c s).offer = s.offer := rfl
@[simp] theorem afterRead_agenda (c : Chan) (s : State) : (afterRead c s).agenda = s.agenda := rfl
@[simp] theorem afterRead_trace (c : Chan) (s : State) : (afterRead c s).trace = s.trace ++ [.lineRead (s.cfg.dataLine.get c) (dataLevel c s)] := rfl

@[simp] theorem csWrite_bank (c : Chan) (p : Word24) (lt : Bool) (lv : Word24) (st : Bool) (s : State) : (csWrite c p lt lv st s).bank = s.bank.set c { prev := p, lastTo := lt, lastVal := lv, step := st } := rfl
@[simp] theorem csWrite_gate (c : Chan) (p : Word24) (lt : Bool) (lv : Word24) (st : Bool) (s : State) : (csWrite c p lt lv st s).gate = s.gate := rfl
@[simp] theorem csWrite_sck (c : Chan) (p : Word24) (lt : Bool) (lv : Word24) (st : Bool) (s : State) : (csWrite c p lt lv st s).sck = s.sck := rfl
@[simp] theorem csWrite_sched (c : Chan) (p : Word24) (lt : Bool) (lv : Word24) (st : Bool) (s : State) : (csWrite c p lt lv st s).sched = s.sched := rfl
@[simp] theorem csWrite_ch (c : Chan) (p : Word24) (lt : Bool) (lv : Word24) (st : Bool) (s : State) : (csWrite c p lt lv st s).ch = s.ch := rfl
@[simp] theorem csWrite_phase (c : Chan) (p : Word24) (lt : Bool) (lv : Word24) (st : Bool) (s : State) : (csWrite c p lt lv st s).phase = s.phase := rfl
@[simp] theorem csWrite_acc (c : Chan) (p : Word24) (lt : Bool) (lv : Word24) (st : Bool) (s : State) : (csWrite c p lt lv st s).acc = s.acc := rfl
@[simp] theorem csWrite_bitCnt (c : Chan) (p : Word24) (lt : Bool) (lv : Word24) (st : Bool) (s : State) : (csWrite c p lt lv st s).bitCnt = s.bitCnt := rfl
@[simp] theorem csWrite_gCnt (c : Chan) (p : Word24) (lt : Bool) (lv : Word24) (st : Bool) (s : State) : (csWrite c p lt lv st s).gCnt = s.gCnt := rfl
@[simp] theorem csWrite_pollCnt (c : Chan) (p : Word24) (lt : Bool) (lv : Word24) (st : Bool) (s : State) : (csWrite c p lt lv st s).pollCnt = s.pollCnt := rfl
@[simp] theorem csWrite_rdy (c : Chan) (p : Word24) (lt : Bool) (lv : Word24) (st : Bool) (s : State) : (csWrite c p lt lv st s).rdy = s.rdy := rfl
@[simp] theorem csWrite_smpTo (c : Chan) (p : Word24) (lt : Bool) (lv : Word24) (st : Bool) (s : State) : (csWrite c p lt lv st s).smpTo = s.smpTo := rfl
@[simp] theorem csWrite_smpVal (c : Chan) (p : Word24) (lt : Bool) (lv : Word24) (st : Bool) (s : State) : (csWrite c p lt lv st s).smpVal = s.smpVal := rfl
@[simp] theorem csWrite_np (c : Chan) (p : Word24) (lt : Bool) (lv : Word24) (st : Bool) (s : State) : (csWrite c p lt lv st s).np = s.np := rfl
@[simp] theorem csWrite_ns (c : Chan) (p : Word24) (lt : Bool) (lv : Word24) (st : Bool) (s : State) : (csWrite c p lt lv st s).ns = s.ns := rfl
@[simp] theorem csWrite_inited (c : Chan) (p : Word24) (lt : Bool) (lv : Word24) (st : Bool) (s : State) : (csWrite c p lt lv st s).inited = s.inited := rfl
@[simp] theorem csWrite_cfgErr (c : Chan) (p : Word24) (lt : Bool) (lv : Word24) (st : Bool) (s : State) : (csWrite c p lt lv st s).cfgErr = s.cfgErr := rfl
@[simp] theorem csWrite_stopReq (c : Chan) (p : Word24) (lt : Bool) (lv : Word24) (st : Bool) (s : State) : (csWrite c p lt lv st s).stopReq = s.stopReq := rfl
@[simp] theorem csWrite_stopped (c : Chan) (p : Word24) (lt : Bool) (lv : Word24) (st : Bool) (s : State) : (csWrite c p lt lv st s).stopped = s.stopped := rfl
@[simp] theorem csWrite_cfg (c : Chan) (p : Word24) (lt : Bool) (lv : Word24) (st : Bool) (s : State) : (csWrite c p lt lv st s).cfg = s.cfg := rfl
@[simp] theorem csWrite_fusionPresent (c : Chan) (p : Word24) (lt : Bool) (lv : Word24) (st : Bool) (s : State) : (csWrite c p lt lv st s).fusionPresent = s.fusionPresent := rfl
@[simp] theorem csWrite_ovr (c : Chan) (p : Word24) (lt : Bool) (lv : Word24) (st : Bool) (s : State) : (csWrite c p lt lv st s).ovr = s.ovr := rfl
@[simp] theorem csWrite_amps (c : Chan) (p : Word24) (lt : Bool) (lv : Word24) (st : Bool) (s : State) : (csWrite c p lt lv st s).amps = s.amps := rfl
@[simp] theorem csWrite_offer (c : Chan) (p : Word24) (lt : Bool) (lv : Word24) (st : Bool) (s : State) : (csWrite c p lt lv st s).offer = s.offer := rfl
@[simp] theorem csWrite_agenda (c : Chan) (p : Word24) (lt : Bool) (lv : Word24) (st : Bool) (s : State) : (csWrite c p lt lv st s).agenda = s.agenda := rfl
@[simp] theorem csWrite_trace (c : Chan) (p : Word24) (lt : Bool) (lv : Word24) (st : Bool) (s : State) : (csWrite c p lt lv st s).trace = s.trace := rfl

@[simp] theorem setGate_bank (c : Chan) (v : Level) (s : State) : (setGate c v s).bank = s.bank := rfl
@[simp] theorem setGate_gate (c : Chan) (v : Level) (s : State) : (setGate c v s).gate = s.gate.set c v := rfl
@[simp] theorem setGate_sck (c : Chan) (v : Level) (s : State) : (setGate c v s).sck = s.sck := rfl
@[simp] theorem setGate_sched (c : Chan) (v : Level) (s : State) : (setGate c v s).sched = s.sched := rfl
@[simp] theorem setGate_ch (c : Chan) (v : Level) (s : State) : (setGate c v s).ch = s.ch := rfl
@[simp] theorem setGate_phase (c : Chan) (v : Level) (s : State) : (setGate c v s).phase = s.phase := rfl
@[simp] theorem setGate_acc (c : Chan) (v : Level) (s : State) : (setGate c v s).acc = s.acc := rfl
@[simp] theorem setGate_bitCnt (c : Chan) (v : Level) (s : State) : (setGate c v s).bitCnt = s.bitCnt := rfl
@[simp] theorem setGate_gCnt (c : Chan) (v : Level) (s : State) : (setGate c v s).gCnt = s.gCnt := rfl
@[simp] theorem setGate_pollCnt (c : Chan) (v : Level) (s : State) : (setGate c v s).pollCnt = s.pollCnt := rfl
@[simp] theorem setGate_rdy (c : Chan) (v : Level) (s : State) : (setGate c v s).rdy = s.rdy := rfl
@[simp] theorem setGate_smpTo (c : Chan) (v : Level) (s : State) : (setGate c v s).smpTo = s.smpTo := rfl
@[simp] theorem setGate_smpVal (c : Chan) (v : Level) (s : State) : (setGate c v s).smpVal = s.smpVal := rfl
@[simp] theorem setGate_np (c : Chan) (v : Level) (s : State) : (setGate c v s).np = s.np := rfl
@[simp] theorem setGate_ns (c : Chan) (v : Level) (s : State) : (setGate c v s).ns = s.ns := rfl
@[simp] theorem setGate_inited (c : Chan) (v : Level) (s : State) : (setGate c v s).inited = s.inited := rfl
@[simp] theorem setGate_cfgErr (c : Chan) (v : Level) (s : State) : (setGate c v s).cfgErr = s.cfgErr := rfl
@[simp] theorem setGate_stopReq (c : Chan) (v : Level) (s : State) : (setGate c v s).stopReq = s.stopReq := rfl
@[simp] theorem setGate_stopped (c : Chan) (v : Level) (s : State) : (setGate c v s).stopped = s.stopped := rfl
@[simp] theorem setGate_cfg (c : Chan) (v : Level) (s : State) : (setGate c v s).cfg = s.cfg := rfl
@[simp] theorem setGate_fusionPresent (c : Chan) (v : Level) (s : State) : (setGate c v s).fusionPresent = s.fusionPresent := rfl
@[simp] theorem setGate_ovr (c : Chan) (v : Level) (s : State) : (setGate c v s).ovr = s.ovr := rfl
@[simp] theorem setGate_amps (c : Chan) (v : Level) (s : State) : (setGate c v s).amps = s.amps := rfl
@[simp] theorem setGate_offer (c : Chan) (v : Level) (s : State) : (setGate c v s).offer = s.offer := rfl
@[simp] theorem setGate_agenda (c : Chan) (v : Level) (s : State) : (setGate c v s).agenda = s.agenda := rfl
@[simp] theorem setGate_trace (c : Chan) (v : Level) (s : State) : (setGate c v s).trace = s.trace ++ [.setGate c v] := rfl

@[simp] theorem popMove_bank (s : State) : (popMove s).bank = s.bank := rfl
@[simp] theorem popMove_gate (s : State) : (popMove s).gate = s.gate := rfl
@[simp] theorem popMove_sck (s : State) : (popMove s).sck = s.sck := rfl
@[simp] theorem popMove_sched (s : State) : (popMove s).sched = s.sched := rfl
@[simp] theorem popMove_ch (s : State) : (popMove s).ch = s.ch := rfl
@[simp] theorem popMove_phase (s : State) : (popMove s).phase = s.phase := rfl
@[simp] theorem popMove_acc (s : State) : (popMove s).acc = s.acc := rfl
@[simp] theorem popMove_bitCnt (s : State) : (popMove s).bitCnt = s.bitCnt := rfl
@[simp] theorem popMove_gCnt (s : State) : (popMove s).gCnt = s.gCnt := rfl
@[simp] theorem popMove_pollCnt (s : State) : (popMove s).pollCnt = s.pollCnt := rfl
@[simp] theorem popMove_rdy (s : State) : (popMove s).rdy = s.rdy := rfl
@[simp] theorem popMove_smpTo (s : State) : (popMove s).smpTo = s.smpTo := rfl
@[simp] theorem popMove_smpVal (s : State) : (popMove s).smpVal = s.smpVal := rfl
@[simp] theorem popMove_np (s : State) : (popMove s).np = s.np := rfl
@[simp] theorem popMove_ns (s : State) : (popMove s).ns = s.ns := rfl
@[simp] theorem popMove_inited (s : State) : (popMove s).inited = s.inited := rfl
@[simp] theorem popMove_cfgErr (s : State) : (popMove s).cfgErr = s.cfgErr := rfl
@[simp] theorem popMove_stopReq (s : State) : (popMove s).stopReq = s.stopReq := rfl
@[simp] theorem popMove_stopped (s : State) : (popMove s).stopped = s.stopped := rfl
@[simp] theorem popMove_cfg (s : State) : (popMove s).cfg = s.cfg := rfl
@[simp] theorem popMove_fusionPresent (s : State) : (popMove s).fusionPresent = s.fusionPresent := rfl
@[simp] theorem popMove_ovr (s : State) : (popMove s).ovr = s.ovr := rfl
@[simp] theorem popMove_amps (s : State) : (popMove s).amps = s.amps := rfl
@[simp] theorem popMove_offer (s : State) : (popMove s).offer = s.offer := rfl
@[simp] theorem popMove_agenda (s : State) : (popMove s).agenda = s.agenda.tail := rfl
@[simp] theorem popMove_trace (s : State) : (popMove s).trace = s.trace := rfl

@[simp] theorem endPulse_bank (s : State) : (endPulse s).bank = s.bank := rfl
@[simp] theorem endPulse_gate (s : State) : (endPulse s).gate = s.gate := rfl
@[simp] theorem endPulse_sck (s : State) : (endPulse s).sck = s.sck := rfl
@[simp] theorem endPulse_sched (s : State) : (endPulse s).sched = s.sched := rfl
@[simp] theorem endPulse_ch (s : State) : (endPulse s).ch = s.ch := rfl
@[simp] theorem endPulse_phase (s : State) : (endPulse s).phase = s.phase := rfl
@[simp] theorem endPulse_acc (s : State) : (endPulse s).acc = s.acc := rfl
@[simp] theorem endPulse_bitCnt (s : State) : (endPulse s).bitCnt = s.bitCnt := rfl
@[simp] theorem endPulse_gCnt (s : State) : (endPulse s).gCnt = s.gCnt := rfl
@[simp] theorem endPulse_pollCnt (s : State) : (endPulse s).pollCnt = s.pollCnt := rfl
@[simp] theorem endPulse_rdy (s : State) : (endPulse s).rdy = s.rdy := rfl
@[simp] theorem endPulse_smpTo (s : State) : (endPulse s).smpTo = s.smpTo := rfl
@[simp] theorem endPulse_smpVal (s : State) : (endPulse s).smpVal = s.smpVal := rfl
@[simp] theorem endPulse_np (s : State) : (endPulse s).np = s.np := rfl
@[simp] theorem endPulse_ns (s : State) : (endPulse s).ns = s.ns := rfl
@[simp] theorem endPulse_inited (s : State) : (endPulse s).inited = s.inited := rfl
@[simp] theorem endPulse_cfgErr (s : State) : (endPulse s).cfgErr = s.cfgErr := rfl
@[simp] theorem endPulse_stopReq (s : State) : (endPulse s).stopReq = s.stopReq := rfl
@[simp] theorem endPulse_stopped (s : State) : (endPulse s).stopped = s.stopped := rfl
@[simp] theorem endPulse_cfg (s : State) : (endPulse s).cfg = s.cfg := rfl
@[simp] theorem endPulse_fusionPresent (s : State) : (endPulse s).fusionPresent = s.fusionPresent := rfl
@[simp] theorem endPulse_ovr (s : State) : (endPulse s).ovr = false := rfl
@[simp] theorem endPulse_amps (s : State) : (endPulse s).amps = s.amps := rfl
@[simp] theorem endPulse_offer (s : State) : (endPulse s).offer = s.offer := rfl
@[simp] theorem endPulse_agenda (s : State) : (endPulse s).agenda = s.agenda := rfl
@[simp] theorem endPulse_trace (s : State) : (endPulse s).trace = s.trace := rfl

@[simp] theorem pulse_sck (s : State) : (pulse s).sck = false := by
  simp [pulse, lineWrite]

@[simp] theorem dataLevel_pulse (c : Chan) (s : State) : dataLevel c (pulse s) = dataLevel c s := rfl

@[simp] theorem popMove_nil {s : State} (h : s.agenda = []) : popMove s = s := by
  cases s
  simp_all [popMove]

end Sys2Proof.Machine
end

