-- ==== Sys2Proof/Laws/Ops.lean ====
section
/-! SUPPORT. One law for each shared operation: what it can do, said once. -/

namespace Sys2Proof.Machine

/-- A pulse records the two edges and leaves the clock low. -/
theorem pulse_eq (s : State) :
    pulse s = { s with
      sck := false
      trace := s.trace ++ [.lineWrite s.cfg.clkLine true, .lineWrite s.cfg.clkLine false] } := by
  simp [pulse, lineWrite]

theorem takeCondition_deviceNotReady (c : Chan) (s : State) :
    takeCondition (.deviceNotReady c) s
      = { s with rdy := false, smpTo := true, phase := .dec, trace := s.trace ++ [.raised (.deviceNotReady c)] } := rfl

theorem takeCondition_configurationError (s : State) :
    takeCondition .configurationError s
      = { s with cfgErr := true, trace := s.trace ++ [.raised .configurationError] } := rfl

/-- What `j` high polls of channel `c` leave. -/
def afterHighPolls (c : Chan) (j : Nat) (s : State) : State :=
  { s with
    pollCnt := s.pollCnt + j
    amps := s.amps.set c ((s.amps.get c).after j)
    trace := s.trace ++ List.replicate j (.lineRead (s.cfg.dataLine.get c) true) }

theorem afterHighPolls_zero (c : Chan) (s : State) : afterHighPolls c 0 s = s := by
  cases s
  simp [afterHighPolls]

theorem afterHighPolls_succ {c : Chan} {s : State} (h : dataLevel c s = true) (j : Nat) :
    afterHighPolls c j { afterRead c s with pollCnt := s.pollCnt + 1 } = afterHighPolls c (j + 1) s := by
  simp [afterHighPolls, afterRead, h, Amp.advance_after, List.replicate_succ, Nat.add_assoc, Nat.add_comm 1 j]

theorem dataLevel_afterRead (c : Chan) (s : State) (k : Nat) :
    dataLevel c { afterRead c s with pollCnt := k } = (s.amps.get c).nth c 1 := by
  simp [dataLevel, Amp.nth, Amp.after]

theorem afterRead_amp (c : Chan) (s : State) : (afterRead c s).amps.get c = (s.amps.get c).advance := by
  simp

/-- The loop when poll `j` is the first that reads low. -/
theorem pollLoop_ready (c : Chan) (j : Nat) : ∀ (n : Nat) (s : State), j < n →
    (∀ i, i < j → (s.amps.get c).nth c i = true) → (s.amps.get c).nth c j = false →
    pollLoop c n s = (true, afterRead c (afterHighPolls c j s)) := by
  induction j with
  | zero =>
    intro n s hn _ hl
    cases n with
    | zero => omega
    | succ n =>
      have : dataLevel c s = false := hl
      simp [pollLoop, this, afterHighPolls_zero]
  | succ j ih =>
    intro n s hn hh hl
    cases n with
    | zero => omega
    | succ n =>
      have h0 : dataLevel c s = true := hh 0 (by omega)
      simp only [pollLoop, h0, if_true]
      rw [ih n _ (by omega) ?_ ?_, afterHighPolls_succ h0]
      · intro i hi
        simp only [afterRead_amps, PerCh.get_set_self, Amp.advance_nth]
        exact hh (i + 1) (by omega)
      · simpa only [afterRead_amps, PerCh.get_set_self, Amp.advance_nth] using hl

/-- The loop when every permitted poll reads high. -/
theorem pollLoop_timeout (c : Chan) (n : Nat) : ∀ (s : State), (∀ i, i < n → (s.amps.get c).nth c i = true) →
    pollLoop c n s = (false, afterHighPolls c n s) := by
  induction n with
  | zero => intro s _; simp [pollLoop, afterHighPolls_zero]
  | succ n ih =>
    intro s hh
    have h0 : dataLevel c s = true := hh 0 (by omega)
    simp only [pollLoop, h0, if_true]
    rw [ih _ ?_, afterHighPolls_succ h0]
    intro i hi
    simp only [afterRead_amps, PerCh.get_set_self, Amp.advance_nth]
    exact hh (i + 1) (by omega)

/-- Every wait ends in one of the two ways. -/
theorem wait_cases (c : Chan) (a : Amp) (m : Nat) :
    (∃ j, j < m ∧ (∀ i, i < j → a.nth c i = true) ∧ a.nth c j = false) ∨ (∀ i, i < m → a.nth c i = true) := by
  induction m with
  | zero => exact .inr (fun i hi => by omega)
  | succ m ih =>
    rcases ih with ⟨j, hj, hh, hl⟩ | hh
    · exact .inl ⟨j, by omega, hh, hl⟩
    · cases hm : a.nth c m with
      | false => exact .inl ⟨m, by omega, hh, hm⟩
      | true =>
        refine .inr (fun i hi => ?_)
        rcases Nat.lt_or_ge i m with h | h
        · exact hh i h
        · have : i = m := by omega
          exact this ▸ hm

/-- What `WRDY c` leaves when poll `j` is the first that reads low. -/
theorem waitReady_ready {c : Chan} {s : State} {j : Nat} (hj : j < pollBound c s)
    (hh : ∀ i, i < j → (s.amps.get c).nth c i = true) (hl : (s.amps.get c).nth c j = false) :
    waitReady c s = { s with
      pollCnt := j
      rdy := true
      acc := 0
      bitCnt := 0
      phase := .shb
      amps := s.amps.set c ((s.amps.get c).after (j + 1))
      trace := s.trace ++ List.replicate j (.lineRead (s.cfg.dataLine.get c) true)
        ++ [.lineRead (s.cfg.dataLine.get c) false] } := by
  have hd : dataLevel c (afterHighPolls c j { s with pollCnt := 0 }) = false := by
    simpa [dataLevel, afterHighPolls, Amp.nth] using hl
  unfold waitReady
  rw [pollLoop_ready c j (pollBound c s) { s with pollCnt := 0 } hj hh hl]
  simp only [if_true, enterFrame, afterRead, hd]
  simp [afterHighPolls, Amp.after_succ]

/-- What `WRDY c` leaves when every permitted poll reads high. -/
theorem waitReady_timeout {c : Chan} {s : State} (hh : ∀ i, i < pollBound c s → (s.amps.get c).nth c i = true) :
    waitReady c s = { s with
      pollCnt := pollBound c s
      rdy := false
      smpTo := true
      phase := .dec
      amps := s.amps.set c ((s.amps.get c).after (pollBound c s))
      trace := s.trace ++ List.replicate (pollBound c s) (.lineRead (s.cfg.dataLine.get c) true)
        ++ [.raised (.deviceNotReady c)] } := by
  unfold waitReady
  rw [pollLoop_timeout c (pollBound c s) { s with pollCnt := 0 } hh]
  simp [takeCondition_deviceNotReady, afterHighPolls]

/-- The two things `WRDY c` can do. -/
theorem waitReady_cases (c : Chan) (s : State) :
    (∃ j, j < pollBound c s ∧ waitReady c s = { s with
      pollCnt := j
      rdy := true
      acc := 0
      bitCnt := 0
      phase := .shb
      amps := s.amps.set c ((s.amps.get c).after (j + 1))
      trace := s.trace ++ List.replicate j (.lineRead (s.cfg.dataLine.get c) true)
        ++ [.lineRead (s.cfg.dataLine.get c) false] })
    ∨ waitReady c s = { s with
      pollCnt := pollBound c s
      rdy := false
      smpTo := true
      phase := .dec
      amps := s.amps.set c ((s.amps.get c).after (pollBound c s))
      trace := s.trace ++ List.replicate (pollBound c s) (.lineRead (s.cfg.dataLine.get c) true)
        ++ [.raised (.deviceNotReady c)] } := by
  rcases wait_cases c (s.amps.get c) (pollBound c s) with ⟨j, hj, hh, hl⟩ | hh
  · exact .inl ⟨j, hj, waitReady_ready hj hh hl⟩
  · exact .inr (waitReady_timeout hh)

/-- The last bit of a frame. -/
theorem shiftBit_last {s : State} (b : Level) (h : s.bitCnt + 1 = 24) :
    shiftBit b s = { s with acc := shiftIn s.acc b, bitCnt := 24, gCnt := 0, phase := .gpl } := by
  unfold shiftBit
  rw [if_pos h, h]

/-- Any other bit of a frame. -/
theorem shiftBit_more {s : State} (b : Level) (h : s.bitCnt + 1 ≠ 24) :
    shiftBit b s = { s with acc := shiftIn s.acc b, bitCnt := s.bitCnt + 1, phase := .shb } := by
  unfold shiftBit
  rw [if_neg h]

/-- The last extra pulse of a frame. -/
theorem countExtra_last {s : State} (h : s.gCnt + 1 = extraAt s) :
    countExtra s = { s with gCnt := extraAt s, phase := .conv } := by
  unfold countExtra
  rw [if_pos h, h]

/-- Any other extra pulse of a frame. -/
theorem countExtra_more {s : State} (h : s.gCnt + 1 ≠ extraAt s) :
    countExtra s = { s with gCnt := s.gCnt + 1, phase := .gpl } := by
  unfold countExtra
  rw [if_neg h]

end Sys2Proof.Machine
end

