-- ==== Sys2Proof/Laws/Step.lean ====
section
/-! SUPPORT. What one step can be: the inversion of `step`, and the step of the worker at each of its phases. -/

namespace Sys2Proof.Machine

/-- A step that answers a next state performed one decoded operation its agent may perform, or ended the override
pulse. -/
theorem step_next_cases {s t : State} (h : step s = .next t) :
    (∃ own w i, wordOf (nextMove s) s = some (own, w) ∧ decode s.fusionPresent w = .ok i
        ∧ mayPerform own i = true ∧ exec i (popMove s) = .next t)
      ∨ (nextMove s = .pulseEnd ∧ t = endPulse (popMove s)) := by
  unfold step at h
  split at h
  · rename_i own w hw
    unfold perform at h
    split at h
    · cases h
    · rename_i i hd
      split at h
      · exact .inl ⟨own, w, i, hw, hd, ‹_›, h⟩
      · cases h
  · rename_i hw
    refine .inr ⟨?_, ?_⟩
    · cases hm : nextMove s with
      | pulseEnd => rfl
      | worker => simp [hm, wordOf] at hw
      | outside w => simp [hm, wordOf] at hw
    · simpa using h.symm

theorem nextMove_nil {s : State} (h : s.agenda = []) : nextMove s = .worker := by
  simp [nextMove, h]

/-- When the move is the worker's, a step performs the op word of its position. -/
theorem step_of_worker {s : State} (h : nextMove s = .worker) : step s = perform true (workerWord s) (popMove s) := by
  simp [step, h, wordOf]

/-- With nothing on the agenda the worker moves. -/
theorem step_of_nil {s : State} (h : s.agenda = []) : step s = perform true (workerWord s) s := by
  simp [step, nextMove_nil h, wordOf, popMove_nil h]

/-- The worker performs what its position names. -/
theorem perform_worker {s : State} {i : Instr} (w : OpWord) (hd : decode s.fusionPresent w = .ok i)
    (ha : i.agent = .worker) : perform true w s = exec i s := by
  simp [perform, hd, mayPerform, ha]

theorem decode_plain_phase (f : Bool) :
    decode f (opWordOf (Phase.code .susp) 0) = .ok .susp ∧ decode f (opWordOf (Phase.code .clkl) 0) = .ok .clkl
      ∧ decode f (opWordOf (Phase.code .gpl) 0) = .ok .gpl ∧ decode f (opWordOf (Phase.code .conv) 0) = .ok .conv
      ∧ decode f (opWordOf (Phase.code .next) 0) = .ok .next := by
  cases f <;> decide

theorem decode_channel_phase (f : Bool) (c : Chan) :
    decode f (opWordOf (Phase.code .wrdy) c.code) = .ok (.wrdy c)
      ∧ decode f (opWordOf (Phase.code .shb) c.code) = .ok (.shb c)
      ∧ decode f (opWordOf (Phase.code .dec) c.code) = .ok (.dec c)
      ∧ decode f (opWordOf (Phase.code .upd) c.code) = .ok (.upd c)
      ∧ decode f (opWordOf (Phase.code .gate) c.code) = .ok (.gate c) := by
  cases f <;> cases c <;> decide

/-- The decoder's answer on the worker's word at a phase without a channel. -/
theorem decode_workerWord_plain (s : State) :
    (s.phase = .susp → decode s.fusionPresent (workerWord s) = .ok .susp)
      ∧ (s.phase = .clkl → decode s.fusionPresent (workerWord s) = .ok .clkl)
      ∧ (s.phase = .gpl → decode s.fusionPresent (workerWord s) = .ok .gpl)
      ∧ (s.phase = .conv → decode s.fusionPresent (workerWord s) = .ok .conv)
      ∧ (s.phase = .next → decode s.fusionPresent (workerWord s) = .ok .next) := by
  obtain ⟨h1, h2, h3, h4, h5⟩ := decode_plain_phase s.fusionPresent
  refine ⟨?_, ?_, ?_, ?_, ?_⟩ <;> intro h <;> simp only [workerWord, h, Phase.takesChannel] <;> assumption

/-- The decoder's answer on the worker's word at a phase with a channel. -/
theorem decode_workerWord_channel {s : State} {c : Chan} (hc : s.ch = c.code) :
    (s.phase = .wrdy → decode s.fusionPresent (workerWord s) = .ok (.wrdy c))
      ∧ (s.phase = .shb → decode s.fusionPresent (workerWord s) = .ok (.shb c))
      ∧ (s.phase = .dec → decode s.fusionPresent (workerWord s) = .ok (.dec c))
      ∧ (s.phase = .upd → decode s.fusionPresent (workerWord s) = .ok (.upd c))
      ∧ (s.phase = .gate → decode s.fusionPresent (workerWord s) = .ok (.gate c)) := by
  obtain ⟨h1, h2, h3, h4, h5⟩ := decode_channel_phase s.fusionPresent c
  refine ⟨?_, ?_, ?_, ?_, ?_⟩ <;> intro h <;>
    simp only [workerWord, h, Phase.takesChannel, hc, if_true] <;> assumption

/-- `EXTRA[CH]` is a register when `CH` names a channel. -/
theorem extraAt_of_channel {s : State} {c : Chan} (h : s.ch = c.code) : extraAt s = s.cfg.extra.get c := by
  simp [extraAt, h]

end Sys2Proof.Machine
end

