-- ==== Sys2Proof/Laws/Exec.lean ====
section
/-! SUPPORT. Everything an operation that answers a next state can do, said once for `exec`. -/

namespace Sys2Proof.Machine

/-- `GPL` in one record. -/
theorem countExtra_pulse (s : State) :
    countExtra (pulse s) = { s with
      sck := false
      gCnt := s.gCnt + 1
      phase := if s.gCnt + 1 = extraAt s then .conv else .gpl
      trace := s.trace ++ [.lineWrite s.cfg.clkLine true, .lineWrite s.cfg.clkLine false] } := by
  rw [pulse_eq]
  rfl

/-- `SHB` in one record. -/
theorem shiftBit_read (c : Chan) (s : State) :
    shiftBit (dataLevel c (pulse s)) (afterRead c (pulse s)) = { s with
      sck := false
      acc := shiftIn s.acc ((s.amps.get c).level c)
      bitCnt := s.bitCnt + 1
      gCnt := if s.bitCnt + 1 = 24 then 0 else s.gCnt
      phase := if s.bitCnt + 1 = 24 then .gpl else .shb
      amps := s.amps.set c (s.amps.get c).advance
      trace := s.trace ++ [.lineWrite s.cfg.clkLine true, .lineWrite s.cfg.clkLine false,
        .lineRead (s.cfg.dataLine.get c) ((s.amps.get c).level c)] } := by
  by_cases h : s.bitCnt + 1 = 24
  · rw [shiftBit_last _ (by simpa using h), if_pos h, if_pos h, h, pulse_eq]
    simp [afterRead, dataLevel]
  · rw [shiftBit_more _ (by simpa using h), if_neg h, if_neg h, pulse_eq]
    simp [afterRead, dataLevel]

/-- A legal `INIT` in one record. -/
theorem loadConfig_eq (r : CfgRecord) (s : State) :
    loadConfig r s = { s with
      cfg := regsOf r
      inited := true
      sck := false
      trace := s.trace ++ [.lineWrite r.clkLine false, .initResult true] } := by
  simp [loadConfig, record, lineWrite, regsOf]

/-- The inversion of `exec`: which operation ran, and the whole state it left. -/
theorem exec_next_cases {i : Instr} {s t : State} (h : exec i s = .next t) :
    (i = .susp ∧ (t = s ∨ (t = { s with stopped := true } ∧ s.stopReq = true ∧ s.phase = .susp)))
    ∨ (i = .clkl ∧ t = { s with
        sck := false, phase := .wrdy, trace := s.trace ++ [.lineWrite s.cfg.clkLine false] })
    ∨ (∃ c, i = .wrdy c ∧ t = waitReady c s)
    ∨ (∃ c, i = .shb c ∧ t = { s with
        sck := false
        acc := shiftIn s.acc ((s.amps.get c).level c)
        bitCnt := s.bitCnt + 1
        gCnt := if s.bitCnt + 1 = 24 then 0 else s.gCnt
        phase := if s.bitCnt + 1 = 24 then .gpl else .shb
        amps := s.amps.set c (s.amps.get c).advance
        trace := s.trace ++ [.lineWrite s.cfg.clkLine true, .lineWrite s.cfg.clkLine false,
          .lineRead (s.cfg.dataLine.get c) ((s.amps.get c).level c)] })
    ∨ (i = .gpl ∧ t = { s with
        sck := false
        gCnt := s.gCnt + 1
        phase := if s.gCnt + 1 = extraAt s then .conv else .gpl
        trace := s.trace ++ [.lineWrite s.cfg.clkLine true, .lineWrite s.cfg.clkLine false] })
    ∨ (i = .conv ∧ t = { s with smpVal := conv24 s.acc, smpTo := false, phase := .dec })
    ∨ (∃ c, i = .dec c ∧ t = { s with
        np := (decision (s.bank.get c) (sampleOf s) s.cfg.threshold).1
        ns := (decision (s.bank.get c) (sampleOf s) s.cfg.threshold).2
        phase := .upd })
    ∨ (∃ c, i = .upd c ∧ t = { s with
        bank := s.bank.set c { prev := s.np, lastTo := s.smpTo, lastVal := if s.smpTo then (s.bank.get c).lastVal else s.smpVal, step := s.ns }
        phase := .gate })
    ∨ (∃ c, i = .gate c ∧ t = { s with
        gate := s.gate.set c (s.bank.get c).step
        phase := .next
        trace := s.trace ++ [.setGate c (s.bank.get c).step] })
    ∨ (i = .next ∧ ((s.ch.toNat < 4 ∧ t = { s with ch := s.ch + 1, phase := .clkl })
        ∨ (4 ≤ s.ch.toNat ∧ t = { s with ch := 0, phase := .susp })))
    ∨ (∃ c, i = .rdl c ∧ t = { s with trace := s.trace ++ [.answer c (statusOf (s.bank.get c))] })
    ∨ (i = .init ∧ initAllowed s = true
        ∧ ((configOk (offered s) = true ∧ t = { s with
              cfg := regsOf (offered s)
              inited := true
              sck := false
              trace := s.trace ++ [.lineWrite (offered s).clkLine false, .initResult true] })
          ∨ (configOk (offered s) = false ∧ t = { s with
              cfgErr := true
              trace := s.trace ++ [.raised .configurationError, .initResult false] })))
    ∨ (i = .tick ∧ ((tickAccepted s = true ∧ t = { s with sched := .running, ch := 1, phase := .clkl })
        ∨ (tickAccepted s = false ∧ t = s)))
    ∨ (i = .stop ∧ t = { s with stopReq := true })
    ∨ (i = .amb ∧ s.fusionPresent = true ∧ t = { s with ovr := true }) := by
  cases i with
  | susp =>
    injection h with h
    cases hc : stopDue s with
    | false => simp [hc] at h; simp [h]
    | true =>
      have hd : s.stopReq = true ∧ s.phase = .susp := by simpa [stopDue] using hc
      simp [hc] at h
      simp [← h, hd]
  | clkl =>
    injection h with h
    simp [← h, lineWrite]
  | wrdy c =>
    injection h with h
    simp [← h]
  | shb c =>
    injection h with h
    simp only [shiftBit_read] at h
    simp [← h]
  | gpl =>
    injection h with h
    simp only [countExtra_pulse] at h
    simp [← h]
  | conv =>
    injection h with h
    simp [← h]
  | dec c =>
    injection h with h
    simp [← h, csRead]
  | upd c =>
    injection h with h
    simp [← h, csWrite, csRead]
  | gate c =>
    injection h with h
    simp [← h, setGate, csRead]
  | next =>
    injection h with h
    rcases Nat.lt_or_ge s.ch.toNat 4 with hc | hc
    · rw [if_pos hc] at h
      simp [← h, hc]
    · rw [if_neg (by omega)] at h
      simp [← h, hc]
  | rdl c =>
    injection h with h
    simp [← h, record, csRead]
  | init =>
    cases ha : initAllowed s with
    | false => simp [exec, execInit, ha] at h
    | true =>
      cases hc : configOk (offered s) with
      | false =>
        simp [exec, execInit, ha, hc, takeCondition_configurationError, record] at h
        simp [← h]
      | true =>
        simp [exec, execInit, ha, hc, loadConfig_eq] at h
        simp [← h]
  | tick =>
    injection h with h
    cases hc : tickAccepted s with
    | false => simp [hc] at h; simp [h]
    | true => simp [hc] at h; simp [← h]
  | stop =>
    injection h with h
    simp [← h]
  | amb =>
    cases ha : s.fusionPresent with
    | false => simp [exec, execAmb, ha] at h
    | true =>
      simp [exec, execAmb, ha] at h
      simp [← h]

end Sys2Proof.Machine
end

