-- ==== Sys2Proof/Laws/Run.lean ====
section
/-! SUPPORT. Runs of the worker: the operation at each position, runs in sequence, and the induction over a run packaged
once. -/

namespace Sys2Proof.Machine

/-- The operation the worker performs at a phase, with the channel in progress (43_scheduler.md R195). -/
def opAt : Phase → Chan → Instr
  | .susp, _ => .susp
  | .clkl, _ => .clkl
  | .wrdy, c => .wrdy c
  | .shb, c => .shb c
  | .gpl, _ => .gpl
  | .conv, _ => .conv
  | .dec, c => .dec c
  | .upd, c => .upd c
  | .gate, c => .gate c
  | .next, _ => .next

theorem opAt_agent (p : Phase) (c : Chan) : (opAt p c).agent = .worker := by cases p <;> rfl

/-- The worker's word, where `CH` names a channel, is that of the operation at its position. -/
theorem workerWord_of_channel {s : State} {c : Chan} (hc : s.ch = c.code) :
    workerWord s = encode (opAt s.phase c) := by
  cases h : s.phase <;> simp [workerWord, h, Phase.takesChannel, hc, opAt, encode, Phase.code]

theorem decode_workerWord {s : State} {c : Chan} (hc : s.ch = c.code) :
    decode s.fusionPresent (workerWord s) = .ok (opAt s.phase c) := by
  obtain ⟨a1, a2, a3, a4, a5⟩ := decode_workerWord_plain s
  obtain ⟨b1, b2, b3, b4, b5⟩ := decode_workerWord_channel hc
  cases h : s.phase <;> simp_all [opAt]

/-- `EXTRA[CH]` depends on `CH` and the configuration only. -/
theorem extraAt_congr {s t : State} (hch : t.ch = s.ch) (hcfg : t.cfg = s.cfg) : extraAt t = extraAt s := by
  unfold extraAt
  rw [hch, hcfg]

/-- With nothing on the agenda, one step of the worker. -/
theorem step_worker {s : State} {c : Chan} (ha : s.agenda = []) (hc : s.ch = c.code) :
    step s = exec (opAt s.phase c) s := by
  rw [step_of_nil ha, perform_worker _ (decode_workerWord hc) (opAt_agent _ _)]

theorem run_one {s : State} {c : Chan} (ha : s.agenda = []) (hc : s.ch = c.code) :
    run 1 s = exec (opAt s.phase c) s := by
  simp only [run]
  rw [step_worker ha hc]
  cases exec (opAt s.phase c) s <;> rfl

/-- A run in two parts. -/
theorem run_add {m : Nat} (n : Nat) {s t : State} (h : run m s = .next t) : run (m + n) s = run n t := by
  induction m generalizing s with
  | zero =>
    injection h with h
    rw [h, Nat.zero_add]
  | succ m ih =>
    rw [Nat.succ_add]
    simp only [run] at h ⊢
    cases hs : step s with
    | next u => rw [hs] at h; exact ih h
    | fault r => cases r
    | refused r => rw [hs] at h; cases h

/-- What every step keeps, a run keeps. -/
theorem run_keeps {P : State → Prop} (hstep : ∀ s t, P s → step s = .next t → P t) {n : Nat} {s t : State}
    (hs : P s) (h : run n s = .next t) : P t := by
  induction n generalizing s with
  | zero =>
    injection h with h
    exact h ▸ hs
  | succ n ih =>
    simp only [run] at h
    cases hu : step s with
    | next u => rw [hu] at h; exact ih (hstep s u hs hu) h
    | fault r => cases r
    | refused r => rw [hu] at h; cases h

/-- No operation touches the agenda. -/
theorem exec_agenda {i : Instr} {s t : State} (h : exec i s = .next t) : t.agenda = s.agenda := by
  rcases exec_next_cases h with ⟨_, rfl | ⟨rfl, _⟩⟩ | ⟨_, rfl⟩ | ⟨c, _, rfl⟩ | ⟨_, _, rfl⟩ | ⟨_, rfl⟩ | ⟨_, rfl⟩
    | ⟨_, _, rfl⟩ | ⟨_, _, rfl⟩ | ⟨_, _, rfl⟩ | ⟨_, ⟨_, rfl⟩ | ⟨_, rfl⟩⟩ | ⟨_, _, rfl⟩ | ⟨_, _, ⟨_, rfl⟩ | ⟨_, rfl⟩⟩
    | ⟨_, ⟨_, rfl⟩ | ⟨_, rfl⟩⟩ | ⟨_, rfl⟩ | ⟨_, _, rfl⟩
  case inr.inr.inl => rcases waitReady_cases c s with ⟨j, _, e⟩ | e <;> rw [e]
  all_goals rfl

/-- With nothing on the agenda, nothing is put there. -/
theorem run_agenda_nil {n : Nat} {s t : State} (ha : s.agenda = []) (h : run n s = .next t) : t.agenda = [] := by
  refine run_keeps (P := fun s => s.agenda = []) (fun s t hs hst => ?_) ha h
  rcases step_next_cases hst with ⟨_, _, _, _, _, _, he⟩ | ⟨_, rfl⟩
  · rw [exec_agenda he, popMove_nil hs, hs]
  · simp [popMove, endPulse, hs]

@[simp] theorem lineEvents_append (es fs : List Event) : lineEvents (es ++ fs) = lineEvents es ++ lineEvents fs := by
  simp [lineEvents]

@[simp] theorem gateEvents_append (es fs : List Event) : gateEvents (es ++ fs) = gateEvents es ++ gateEvents fs := by
  simp [gateEvents]

/-- What the number of high polls says of the line. -/
theorem Amp.firstLow_some {c : Chan} {a : Amp} {m j : Nat} (h : a.firstLow c m = some j) :
    j < m ∧ (∀ i, i < j → a.nth c i = true) ∧ a.nth c j = false := by
  unfold Amp.firstLow at h
  rw [List.find?_range_eq_some] at h
  obtain ⟨h1, h2, h3⟩ := h
  exact ⟨by simpa using h2, fun i hi => by simpa using h3 i hi, by simpa using h1⟩

theorem Amp.firstLow_none {c : Chan} {a : Amp} {m : Nat} (h : a.firstLow c m = none) :
    ∀ i, i < m → a.nth c i = true := by
  unfold Amp.firstLow at h
  rw [List.find?_range_eq_none] at h
  exact fun i hi => by simpa using h i hi

end Sys2Proof.Machine
end

