-- ==== Sys2Proof/Laws/Fairness.lean ====
section
/-! SUPPORT. Runs for ever: one moment to the next, the induction over moments packaged once, and the measure that falls
with every step of the worker inside a cycle. -/

namespace Sys2Proof.Machine

@[simp] theorem askMove_agenda (m : Move) (s : State) : (askMove m s).agenda = s.agenda ++ [m] := rfl
@[simp] theorem askMove_phase (m : Move) (s : State) : (askMove m s).phase = s.phase := rfl
@[simp] theorem askMove_ch (m : Move) (s : State) : (askMove m s).ch = s.ch := rfl
@[simp] theorem askMove_inited (m : Move) (s : State) : (askMove m s).inited = s.inited := rfl
@[simp] theorem askMove_stopReq (m : Move) (s : State) : (askMove m s).stopReq = s.stopReq := rfl
@[simp] theorem askMove_fusionPresent (m : Move) (s : State) : (askMove m s).fusionPresent = s.fusionPresent := rfl

theorem runUnder_zero (e : Nat → Move) (s : State) : runUnder e 0 s = .next s := rfl

/-- One moment on. -/
theorem runUnder_succ {e : Nat → Move} {n : Nat} {s t : State} (h : runUnder e n s = .next t) :
    runUnder e (n + 1) s = step (askMove (e n) t) := by
  simp [runUnder, h]

/-- A moment that is reached was reached by one step. -/
theorem runUnder_succ_cases {e : Nat → Move} {n : Nat} {s t : State} (h : runUnder e (n + 1) s = .next t) :
    ∃ u, runUnder e n s = .next u ∧ step (askMove (e n) u) = .next t := by
  simp only [runUnder] at h
  cases hu : runUnder e n s with
  | next u => rw [hu] at h; exact ⟨u, rfl, h⟩
  | fault r => cases r
  | refused r => rw [hu] at h; cases h

/-- A moment that is reached was preceded by every earlier one. -/
theorem runUnder_earlier {e : Nat → Move} {n m : Nat} {s t : State} (hnm : n ≤ m) (h : runUnder e m s = .next t) :
    ∃ u, runUnder e n s = .next u := by
  induction m generalizing t with
  | zero => exact ⟨t, by rwa [Nat.le_zero.mp hnm]⟩
  | succ m ih =>
    rcases Nat.lt_or_ge m n with hm | hm
    · exact ⟨t, by rwa [Nat.le_antisymm hnm hm]⟩
    · obtain ⟨u, hu, _⟩ := runUnder_succ_cases h
      exact ih hm hu

/-- What every step keeps, whoever's move is asked for, every moment from `n` on has. -/
theorem runUnder_keeps {e : Nat → Move} {P : State → Prop}
    (hstep : ∀ k u v, P u → step (askMove (e k) u) = .next v → P v) {n m : Nat} {s t u : State} (hnm : n ≤ m)
    (ht : runUnder e n s = .next t) (hP : P t) (hu : runUnder e m s = .next u) : P u := by
  induction m generalizing u with
  | zero =>
    rw [Nat.le_zero.mp hnm, hu] at ht
    injection ht with ht
    exact ht ▸ hP
  | succ m ih =>
    rcases Nat.lt_or_ge m n with hm | hm
    · rw [Nat.le_antisymm hnm hm, hu] at ht
      injection ht with ht
      exact ht ▸ hP
    · obtain ⟨w, hw, hs⟩ := runUnder_succ_cases hu
      exact hstep m w u (ih hm hw) hs

/-- A step takes one move off the agenda and puts none there. -/
theorem step_agenda {s t : State} (h : step s = .next t) : t.agenda = s.agenda.tail := by
  rcases step_next_cases h with ⟨_, _, _, _, _, _, he⟩ | ⟨_, rfl⟩
  · simp [exec_agenda he]
  · simp

/-- Whoever is asked, each later moment finds only moves asked for. -/
theorem runUnder_allMoves {e : Nat → Move} {P : Move → Prop} {n : Nat} {s t : State} (ha : AllMoves P e s)
    (h : runUnder e n s = .next t) : AllMoves P e t :=
  runUnder_keeps (P := AllMoves P e)
    (fun k u v hu hs => ⟨fun m hm => by
      rw [step_agenda hs, askMove_agenda] at hm
      rcases List.mem_append.1 (List.mem_of_mem_tail hm) with hm | hm
      · exact hu.1 m hm
      · rw [List.mem_singleton.1 hm]
        exact ha.2 k, ha.2⟩)
    (Nat.zero_le n) (runUnder_zero e s) ha h

/-- The move made at a moment is one asked for. -/
theorem nextMove_askMove {P : Move → Prop} {e : Nat → Move} {s : State} (n : Nat) (ha : AllMoves P e s) :
    P (nextMove (askMove (e n) s)) := by
  cases hl : s.agenda with
  | nil => simpa [nextMove, hl] using ha.2 n
  | cons m ms => simpa [nextMove, hl] using ha.1 m (by simp [hl])

/-- With nothing asked for before, each moment finds nothing left over. -/
theorem runUnder_agenda_nil {e : Nat → Move} {n : Nat} {s t : State} (ha : s.agenda = [])
    (h : runUnder e n s = .next t) : t.agenda = [] :=
  runUnder_keeps (P := fun s => s.agenda = []) (fun _ u _ hu hs => by rw [step_agenda hs, askMove_agenda, hu]; rfl)
    (Nat.zero_le n) (runUnder_zero e s) ha h

/-- With nothing left over, the step at a moment makes the move asked for at it. -/
theorem popMove_askMove {m : Move} {s : State} (ha : s.agenda = []) :
    nextMove (askMove m s) = m ∧ popMove (askMove m s) = s := by
  obtain ⟨⟩ := s
  simp_all [nextMove, popMove, askMove]

/-- A bound on the steps the worker still has to make before it rests at `SUSP`. -/
def stepsLeft (s : State) : Nat :=
  match s.phase with
  | .susp => 0
  | .clkl => 40 * (4 - s.ch.toNat) + 36
  | .wrdy => 40 * (4 - s.ch.toNat) + 35
  | .shb => 40 * (4 - s.ch.toNat) + 10 + (24 - s.bitCnt.toNat)
  | .gpl => 40 * (4 - s.ch.toNat) + 6 + ((extraAt s).toNat - s.gCnt.toNat)
  | .conv => 40 * (4 - s.ch.toNat) + 5
  | .dec => 40 * (4 - s.ch.toNat) + 4
  | .upd => 40 * (4 - s.ch.toNat) + 3
  | .gate => 40 * (4 - s.ch.toNat) + 2
  | .next => 40 * (4 - s.ch.toNat) + 1

/-- Inside a cycle each operation of the worker leaves fewer steps to make. -/
theorem exec_worker_stepsLeft {s t : State} {c : Chan} (hi : Invariant s) (hc : s.ch = c.code) (hp : s.phase ≠ .susp)
    (h : exec (opAt s.phase c) s = .next t) : stepsLeft t < stepsLeft s := by
  have h4 := hi.channelLegal
  have hx : extraAt s = s.cfg.extra.get c := extraAt_of_channel hc
  cases hph : s.phase <;> rw [hph] at h <;>
    rcases exec_next_cases h with ⟨hd, _⟩ | ⟨hd, ht⟩ | ⟨d, hd, ht⟩ | ⟨d, hd, ht⟩ | ⟨hd, ht⟩ | ⟨hd, ht⟩ | ⟨d, hd, ht⟩
      | ⟨d, hd, ht⟩ | ⟨d, hd, ht⟩ | ⟨hd, ht⟩ | ⟨d, hd, ht⟩ | ⟨hd, _⟩ | ⟨hd, _⟩ | ⟨hd, _⟩ | ⟨hd, _⟩ <;>
    simp only [opAt, reduceCtorEq, Instr.wrdy.injEq, Instr.shb.injEq, Instr.dec.injEq, Instr.upd.injEq,
      Instr.gate.injEq] at hd
  case susp => exact absurd hph hp
  case wrdy =>
    subst hd
    rcases waitReady_cases c s with ⟨j, _, e⟩ | e <;> rw [ht, e] <;> simp [stepsLeft, hph]
  case shb =>
    obtain ⟨_, hb⟩ := hi.atShb hph
    subst ht
    have hb1 : (s.bitCnt + 1).toNat = s.bitCnt.toNat + 1 := by rw [BitVec.toNat_add]; simp; omega
    rcases Decidable.em (s.bitCnt + 1 = 24) with h24 | h24
    · have he := (s.cfg.extra.get c).isLt
      simp only [stepsLeft, hph, h24, if_true, extraAt, hc, channelOf_code]
      simp
      omega
    · simp only [stepsLeft, hph, h24, if_false, hb1]
      omega
  case gpl =>
    obtain ⟨_, _, hg⟩ := hi.atGpl hph
    subst ht
    rw [hx] at hg ⊢
    have he := (s.cfg.extra.get c).isLt
    have hg1 : (s.gCnt + 1).toNat = s.gCnt.toNat + 1 := by rw [BitVec.toNat_add]; simp; omega
    rcases Decidable.em (s.gCnt + 1 = s.cfg.extra.get c) with h | h
    · simp only [stepsLeft, hph, h, if_true]
      omega
    · simp only [stepsLeft, hph, h, if_false, hg1, extraAt, hc, channelOf_code]
      omega
  case next =>
    rcases ht with ⟨hlt, ht⟩ | ⟨hge, ht⟩ <;> subst ht
    · have : (s.ch + 1).toNat = s.ch.toNat + 1 := by rw [BitVec.toNat_add]; simp; omega
      simp only [stepsLeft, hph, this]
      omega
    · simp [stepsLeft, hph]
  all_goals subst ht; simp [stepsLeft, hph]

end Sys2Proof.Machine
end

