-- ==== Sys2Proof/Laws/Operands.lean ====
section
/-! SUPPORT. The laws of the conversion, of the shift that assembles the word, and of the sample a wait gives. -/

namespace Sys2Proof.Machine

/-- The conversion is its own inverse on patterns. -/
@[simp] theorem conv24_involutive (u : Word24) : conv24 (conv24 u) = u := by simp [conv24]

/-- The conversion of a word below the centre adds the sign constant. -/
theorem conv24_toNat_low {u : Word24} (h : u.toNat < 8388608) : (conv24 u).toNat = u.toNat + 8388608 := by
  have h1 : (conv24 u).toNat = 2 ^ 23 * 1 ^^^ u.toNat := by
    rw [conv24, BitVec.toNat_xor, Nat.xor_comm]; rfl
  have h2 : 2 ^ 23 * 1 + u.toNat = 2 ^ 23 * 1 ||| u.toNat := Nat.two_pow_add_eq_or_of_lt h 1
  have h3 : 2 ^ 23 * 1 ^^^ u.toNat = 2 ^ 23 * 1 ||| u.toNat := by
    apply Nat.eq_of_testBit_eq
    intro k
    have hk : (2 ^ 23 * 1).testBit k = decide (23 = k) := by rw [Nat.mul_one, Nat.testBit_two_pow]
    rw [Nat.testBit_xor, Nat.testBit_or, hk]
    by_cases hk2 : 23 = k
    · subst hk2
      rw [Nat.testBit_lt_two_pow (by omega : u.toNat < 2 ^ 23)]
      rfl
    · simp [hk2]
  rw [h1, h3, ← h2]
  omega

/-- The conversion of a word at or above the centre takes it off. -/
theorem conv24_toNat_high {u : Word24} (h : 8388608 ≤ u.toNat) : (conv24 u).toNat + 8388608 = u.toNat := by
  have hl : (conv24 u).toNat < 8388608 := by
    by_contra hc
    have e : u.toNat - 8388608 < 8388608 := by have := u.isLt; omega
    have := conv24_toNat_low (u := BitVec.ofNat 24 (u.toNat - 8388608)) (by simp; omega)
    have e2 : conv24 (BitVec.ofNat 24 (u.toNat - 8388608)) = u := by
      apply BitVec.eq_of_toNat_eq; rw [this]; simp; omega
    have e3 := conv24_involutive (BitVec.ofNat 24 (u.toNat - 8388608))
    rw [e2] at e3
    rw [e3] at hc
    simp at hc
    omega
  have := conv24_toNat_low hl
  rw [conv24_involutive] at this
  omega

/-- One bit shifted in: it is bit 0, and every other bit moves up by one. -/
theorem shiftIn_getLsbD (u : Word24) (b : Level) (k : Nat) (h : k < 24) :
    (shiftIn u b).getLsbD k = if k = 0 then b else u.getLsbD (k - 1) := by
  unfold shiftIn
  cases k with
  | zero => simp
  | succ k =>
    simp only [h, BitVec.getLsbD_eq_getElem, BitVec.getElem_or, BitVec.getElem_shiftLeft]
    simp [show k < 24 by omega]

/-- One bit shifted in, as a number, while the word has room. -/
theorem shiftIn_toNat {u : Word24} (b : Level) (h : u.toNat < 2 ^ 23) :
    (shiftIn u b).toNat = 2 * u.toNat + b.toNat := by
  have hs : (u <<< 1).toNat = 2 ^ 1 * u.toNat := by
    rw [BitVec.toNat_shiftLeft, Nat.shiftLeft_eq, Nat.mod_eq_of_lt (by omega), Nat.mul_comm]
  have hb : ((BitVec.ofBool b).setWidth 24).toNat = b.toNat := by cases b <;> rfl
  have hlt : b.toNat < 2 ^ 1 := by cases b <;> decide
  rw [shiftIn, BitVec.toNat_or, hs, hb, ← Nat.two_pow_add_eq_or_of_lt hlt]

end Sys2Proof.Machine
end

