-- ==== Sys2Proof/Laws/PerInstr.lean ====
section
/-! SUPPORT. A law for all operations, one lemma a constructor: the op word's form (30_encoding.md R103). -/

namespace Sys2Proof.Laws.OpWordForm

/-- The op word of the operation has bit 3 clear and a `CHF` of at most 4. -/
def Statement (i : Instr) : Prop := reservedBitOf (encode i) = false ∧ (chfOf (encode i)).toNat ≤ 4

theorem susp : Statement .susp := by unfold Statement; decide
theorem clkl : Statement .clkl := by unfold Statement; decide
theorem wrdy (c : Chan) : Statement (.wrdy c) := by unfold Statement; cases c <;> decide
theorem shb (c : Chan) : Statement (.shb c) := by unfold Statement; cases c <;> decide
theorem gpl : Statement .gpl := by unfold Statement; decide
theorem conv : Statement .conv := by unfold Statement; decide
theorem dec (c : Chan) : Statement (.dec c) := by unfold Statement; cases c <;> decide
theorem upd (c : Chan) : Statement (.upd c) := by unfold Statement; cases c <;> decide
theorem gate (c : Chan) : Statement (.gate c) := by unfold Statement; cases c <;> decide
theorem next : Statement .next := by unfold Statement; decide
theorem rdl (c : Chan) : Statement (.rdl c) := by unfold Statement; cases c <;> decide
theorem init : Statement .init := by unfold Statement; decide
theorem tick : Statement .tick := by unfold Statement; decide
theorem stop : Statement .stop := by unfold Statement; decide
theorem amb : Statement .amb := by unfold Statement; decide

end Sys2Proof.Laws.OpWordForm
end

