-- ==== Sys2Proof/Tests/Slice0.lean ====
section
/-! SUPPORT. Tests: expected results are rows of spec/95_test_vectors.md (its row names in the comments) or words written
out from the encodings of 30_encoding.md. Then a witness for the hypotheses of every statement that has any. -/

namespace Sys2Proof.Tests

open Sys2Proof Sys2Proof.Machine

/-! ## Helpers -/

/-- The state an outcome gives; reset's where it gives none. -/
def nextOf (o : Host.Outcome State Fault Refusal) : State :=
  match o with
  | .next t => t
  | .fault _ => State.reset
  | .refused _ => State.reset

/-- Whether an outcome is a next state. -/
def isNext (o : Host.Outcome State Fault Refusal) : Bool :=
  match o with
  | .next _ => true
  | .fault _ => false
  | .refused _ => false

/-- The refusal of an outcome. -/
def refusalOf (o : Host.Outcome State Fault Refusal) : Option Refusal :=
  match o with
  | .next _ => none
  | .fault _ => none
  | .refused r => some r

/-- The base record of section 2.6. -/
def baseRecord : CfgRecord :=
  { clkLine := some 0
    dataLine := ⟨some 1, some 2, some 3, some 4⟩
    extra := ⟨1, 1, 1, 1⟩
    maxPolls := ⟨3, 3, 3, 3⟩
    threshold := 1000
    tickPeriod := 12 }

/-- The loader about to offer a record, from reset. -/
def offering (r : CfgRecord) : State := { State.reset with offer := some r }

/-- A configured block between two cycles. -/
def resting : State := { State.reset with cfg := regsOf baseRecord, inited := true }

/-- A configured block inside a cycle. -/
def inCycle (p : Phase) (c : Chan) : State := { resting with sched := .running, phase := p, ch := c.code }

/-- The levels channel `c` is about to show. -/
def showing (c : Chan) (ls : List Level) (s : State) : State := { s with amps := s.amps.set c ⟨ls, 0⟩ }

/-- The weight and flags of one entry. -/
def holding (c : Chan) (e : Entry) (s : State) : State := { s with bank := s.bank.set c e }

/-! ## Well-formedness and op words (sections 2.7; 30_encoding.md R104, R105) -/

theorem test_amb_ill_formed_without_fusion : WellFormed false .amb = false := by decide
theorem test_amb_well_formed_with_fusion : WellFormed true .amb = true := by decide
theorem test_decode_susp : decode false 0b00000000#8 = .ok .susp := by decide
theorem test_decode_clkl : decode false 0b00010000#8 = .ok .clkl := by decide
theorem test_decode_wrdy : decode false 0b00100011#8 = .ok (.wrdy .c3) := by decide
theorem test_decode_shb : decode false 0b00110100#8 = .ok (.shb .c4) := by decide
theorem test_decode_gpl : decode false 0b01000000#8 = .ok .gpl := by decide
theorem test_decode_conv : decode false 0b01010000#8 = .ok .conv := by decide
theorem test_decode_dec : decode false 0b01100001#8 = .ok (.dec .c1) := by decide
theorem test_decode_upd : decode false 0b01110010#8 = .ok (.upd .c2) := by decide
theorem test_decode_gate : decode false 0b10000100#8 = .ok (.gate .c4) := by decide
theorem test_decode_next : decode false 0b10010000#8 = .ok .next := by decide
theorem test_decode_rdl : decode false 0b10100010#8 = .ok (.rdl .c2) := by decide
theorem test_decode_init : decode false 0b10110000#8 = .ok .init := by decide
theorem test_decode_tick : decode false 0b11000000#8 = .ok .tick := by decide
theorem test_decode_stop : decode false 0b11010000#8 = .ok .stop := by decide
theorem test_decode_amb : decode true 0b11100000#8 = .ok .amb := by decide

theorem test_decode_illegal :
    decode false 0x11 = .error .channelUnexpected ∧ decode false 0x20 = .error .channelMissing
      ∧ decode false 0x25 = .error .channelReserved ∧ decode false 0x28 = .error .reservedBitSet
      ∧ decode false 0x98 = .error .reservedBitSet ∧ decode false 0xA0 = .error .channelMissing
      ∧ decode false 0xE0 = .error .fusionAbsent ∧ decode false 0xF0 = .error .reservedOpcode := by decide

/-- 32 of the 256 byte values are legal here. -/
theorem test_legal_words_count :
    ((List.range 256).filter (fun w => (decodeTableWord 8 w).isSome)).length = 32 := by decide

/-- The trace of channel 3 in program P4. -/
theorem test_decodeTrace_timeout_turn :
    decodeTrace false [0x10, 0x23, 0x63, 0x73, 0x83, 0x90] = .ok (chanOps .c3 false 1) := by
  simp only [decodeTrace, chanOps, acqOps]
  decide

/-- After reset the next step runs any placed operation this hardware has. -/
theorem test_placed_words_run_from_reset :
    ∀ w ∈ [0x00, 0x10, 0x21, 0x32, 0x40, 0x50, 0x63, 0x74, 0x81, 0x90, 0xA2, 0xB0, 0xC0, 0xD0],
      isNext (step (State.reset.withFetchWord 8 w)) = true := by decide

theorem test_placed_amb_is_refused :
    refusalOf (step (State.reset.withFetchWord 8 0xE0)) = some (.illegalOpWord 0xE0 .fusionAbsent) := by decide

/-! ## One step of each operation -/

/-- K1. -/
theorem test_clkl : (nextOf (exec .clkl (inCycle .clkl .c3))).trace = [.lineWrite (some 0) false]
    ∧ (nextOf (exec .clkl (inCycle .clkl .c3))).phase = .wrdy := by decide

/-- W4: low at the last permitted poll is ready. -/
theorem test_wrdy_last_poll :
    (nextOf (exec (.wrdy .c4) (showing .c4 [true, true, false] (inCycle .wrdy .c4)))).phase = .shb
    ∧ (nextOf (exec (.wrdy .c4) (showing .c4 [true, true, false] (inCycle .wrdy .c4)))).rdy = true := by decide

/-- W3: three high polls are a Timeout. -/
theorem test_wrdy_timeout :
    (nextOf (exec (.wrdy .c2) (showing .c2 [true, true, true, false] (inCycle .wrdy .c2)))).phase = .dec
    ∧ (nextOf (exec (.wrdy .c2) (showing .c2 [true, true, true, false] (inCycle .wrdy .c2)))).trace
      = [.lineRead (some 2) true, .lineRead (some 2) true, .lineRead (some 2) true, .raised (.deviceNotReady .c2)] := by
  decide

/-- B4. -/
theorem test_shb_last_bit :
    (nextOf (exec (.shb .c2) (showing .c2 [false] { inCycle .shb .c2 with acc := 0x400005, bitCnt := 23, gCnt := 3 }))).acc
      = 0x80000A
    ∧ (nextOf (exec (.shb .c2) (showing .c2 [false] { inCycle .shb .c2 with acc := 0x400005, bitCnt := 23, gCnt := 3 }))).phase
      = .gpl := by decide

/-- B6: the old bit 23 is dropped. -/
theorem test_shb_drops_bit_23 :
    (nextOf (exec (.shb .c3) (showing .c3 [false] { inCycle .shb .c3 with acc := 0x800005, bitCnt := 5 }))).acc
      = 0x00000A := by decide

/-- G1. -/
theorem test_gpl_single :
    (nextOf (exec .gpl { inCycle .gpl .c1 with bitCnt := 24 })).phase = .conv
    ∧ (nextOf (exec .gpl { inCycle .gpl .c1 with bitCnt := 24 })).trace
      = [.lineWrite (some 0) true, .lineWrite (some 0) false] := by decide

/-- G2. -/
theorem test_gpl_first_of_three :
    (nextOf (exec .gpl { inCycle .gpl .c2 with
      bitCnt := 24, cfg := { regsOf baseRecord with extra := ⟨1, 3, 1, 1⟩ } })).phase = .gpl := by decide

/-- V1, V16: the ends of the range. -/
theorem test_conv_ends :
    (nextOf (exec .conv { inCycle .conv .c1 with acc := 0x000000 })).smpVal.toInt = -8388608
    ∧ (nextOf (exec .conv { inCycle .conv .c1 with acc := 0xFFFFFF })).smpVal.toInt = 8388607 := by decide

/-- V5, V11. -/
theorem test_conv_near_centre :
    (nextOf (exec .conv { inCycle .conv .c1 with acc := 0x7FFFFF })).smpVal.toInt = -1
    ∧ (nextOf (exec .conv { inCycle .conv .c1 with acc := 0x8005DC })).smpVal.toInt = 1500 := by decide

/-- D-16: the comparison needs 33 bits. -/
theorem test_dec_needs_33_bits :
    (nextOf (exec (.dec .c1) (holding .c1 ⟨0x7FFFFF, false, 0x7FFFFF, false⟩ { inCycle .dec .c1 with
      smpTo := false, smpVal := 0x7FFFFF, cfg := { regsOf baseRecord with threshold := 0x80000000 } }))).ns = true := by
  decide

/-- D-18: hold on Timeout, flag high. -/
theorem test_dec_holds_on_timeout :
    (nextOf (exec (.dec .c1) (holding .c1 ⟨1500, false, 1500, true⟩ (inCycle .dec .c1)))).ns = true
    ∧ (nextOf (exec (.dec .c1) (holding .c1 ⟨1500, false, 1500, true⟩ (inCycle .dec .c1)))).np = 1500 := by decide

/-- U-1, with its CHSTATE word. -/
theorem test_upd_value :
    packEntry ((nextOf (exec (.upd .c1) { inCycle .upd .c1 with
      smpTo := false, smpVal := 1500, np := 1500, ns := true })).bank.get .c1) = 0x20005DC0005DC := by decide

/-- U-2: only `LAST_TO` changes. -/
theorem test_upd_timeout :
    (nextOf (exec (.upd .c2) (holding .c2 ⟨900, false, 900, false⟩ { inCycle .upd .c2 with np := 900 }))).bank.get .c2
      = ⟨900, true, 900, false⟩ := by decide

/-- T-1. -/
theorem test_gate_rises :
    (nextOf (exec (.gate .c1) (holding .c1 ⟨1500, false, 1500, true⟩ (inCycle .gate .c1)))).gate.get .c1 = true := by
  decide

/-- T-2: a low level is still emitted. -/
theorem test_gate_emits_low : (nextOf (exec (.gate .c2) (inCycle .gate .c2))).trace = [.setGate .c2 false] := by decide

/-- NEXT at channels 3 and 4. -/
theorem test_next : (nextOf (exec .next (inCycle .next .c3))).ch = 4
    ∧ (nextOf (exec .next (inCycle .next .c4))).phase = .susp := by decide

/-- L-4: a negative weight, sign extended and packed. -/
theorem test_rdl_negative :
    (nextOf (exec (.rdl .c4) (holding .c4 ⟨0x800000, false, 0x800000, false⟩ resting))).trace
      = [.answer .c4 ⟨0xFF800000, false, false⟩] := by decide

/-- L-3, packed. -/
theorem test_rdl_packed : packStatus (statusOf ⟨1000, true, 0, true⟩) = 0x3000003E8 := by decide

/-- I-1. -/
theorem test_init_ok : (nextOf (exec .init (offering baseRecord))).inited = true
    ∧ (nextOf (exec .init (offering baseRecord))).trace = [.lineWrite (some 0) false, .initResult true] := by decide

/-- I-2 to I-8: each record fails. -/
theorem test_init_fails :
    ∀ r ∈ [{ baseRecord with dataLine := ⟨some 1, some 2, some 2, some 4⟩ },
      { baseRecord with dataLine := ⟨some 1, some 2, some 3, none⟩ }, { baseRecord with clkLine := some 2 },
      { baseRecord with extra := ⟨0, 1, 1, 1⟩ }, { baseRecord with extra := ⟨1, 4, 1, 1⟩ },
      { baseRecord with maxPolls := ⟨3, 3, 3, 0⟩ }, { baseRecord with tickPeriod := 0 }],
      (nextOf (exec .init (offering r))).cfgErr = true ∧ (nextOf (exec .init (offering r))).cfg = CfgRegs.reset := by
  decide

/-- Q-1. -/
theorem test_tick_accepted : nextOf (exec .tick resting) = { resting with sched := .running, ch := 1, phase := .clkl } := by
  decide

/-- Q-5. -/
theorem test_tick_dropped_in_cycle : nextOf (exec .tick (inCycle .shb .c2)) = inCycle .shb .c2 := by decide

/-- STOP in mid-cycle only raises the request. -/
theorem test_stop_mid_cycle : nextOf (exec .stop (inCycle .shb .c3)) = { inCycle .shb .c3 with stopReq := true } := by
  decide

/-- SUSP honours the request. -/
theorem test_susp_honours_stop : (nextOf (exec .susp { resting with stopReq := true })).stopped = true := by decide

/-- SUSP with no request changes nothing. -/
theorem test_susp_holds : nextOf (exec .susp resting) = resting := by decide

/-- AMB where the feature is present raises every gate line. -/
theorem test_amb_with_fusion : gateLine .c3 (nextOf (exec .amb { resting with fusionPresent := true })) = true := by decide

/-- AMB on this hardware. -/
theorem test_amb_absent : refusalOf (exec .amb resting) = some .fusionAbsent := by decide

/-! ## Witnesses: the hypotheses of each statement, met together -/

/-- An outside operation at the head of the agenda. -/
def asking (w : OpWord) (s : State) : State := { s with agenda := [.outside w] }

/-- The four channels' levels, for a whole cycle: ready at the last permitted poll with the word 1500, three high polls,
ready at once with -1, ready at once with the largest word. -/
def cycleLevels : PerCh Amp :=
  ⟨⟨[true, true, false, true] ++ List.replicate 12 false ++ [true, false, true, true, true, false, true, true, true,
      false, false], 0⟩,
    ⟨[true, true, true], 0⟩, ⟨false :: false :: List.replicate 23 true, 0⟩, ⟨false :: List.replicate 24 true, 0⟩⟩

/-- A block at the start of a cycle. -/
def startOfCycle : State := { inCycle .clkl .c1 with amps := cycleLevels }

theorem regsLegal_base : RegsLegal (regsOf baseRecord) :=
  ⟨by decide, by decide, Chan.forall_iff.2 (by decide), Chan.forall_iff.2 (by decide), by decide⟩

/-- A state between `WRDY` and the last `GPL` of a frame that keeps the invariant. -/
def inFrame : State := { inCycle .gpl .c3 with rdy := true, bitCnt := 24, smpTo := false, smpVal := 7 }

theorem invariant_inFrame : Invariant inFrame where
  restsAtZero := by decide
  channelLegal := by decide
  clockLow := by decide
  cycleStarted := by decide
  runningInited := by decide
  oneInit := by decide
  stoppedAtRest := by decide
  configLegal := fun _ => regsLegal_base
  atShb := by decide
  atGpl := by decide
  atConv := by decide
  atUpd := fun h => absurd h (by decide)
  lastIsPrev := Chan.forall_iff.2 (by decide)
  gateIsStep := Chan.forall_iff.2 (by decide)

/-- A state about to perform `UPD 4` on a rise. -/
def atUpdate : State :=
  { inCycle .upd .c4 with rdy := true, smpTo := false, smpVal := 1500, np := 1500, ns := true }

theorem invariant_atUpdate : Invariant atUpdate where
  restsAtZero := by decide
  channelLegal := by decide
  clockLow := by decide
  cycleStarted := by decide
  runningInited := by decide
  oneInit := by decide
  stoppedAtRest := by decide
  configLegal := fun _ => regsLegal_base
  atShb := by decide
  atGpl := by decide
  atConv := by decide
  atUpd := fun _ => Chan.forall_iff.2 (by decide)
  lastIsPrev := Chan.forall_iff.2 (by decide)
  gateIsStep := Chan.forall_iff.2 (by decide)

/-- A state about to perform `GATE 4` on a rise. -/
def atGate : State := holding .c4 ⟨1500, false, 1500, true⟩ { inCycle .gate .c4 with smpTo := false }

theorem invariant_atGate : Invariant atGate where
  restsAtZero := by decide
  channelLegal := by decide
  clockLow := by decide
  cycleStarted := by decide
  runningInited := by decide
  oneInit := by decide
  stoppedAtRest := by decide
  configLegal := fun _ => regsLegal_base
  atShb := by decide
  atGpl := by decide
  atConv := by decide
  atUpd := fun h => absurd h (by decide)
  lastIsPrev := Chan.forall_iff.2 (by decide)
  gateIsStep := Chan.forall_iff.2 (by decide)

/-- A block between two cycles that keeps the invariant. -/
theorem invariant_resting : Invariant resting where
  restsAtZero := by decide
  channelLegal := by decide
  clockLow := by decide
  cycleStarted := by decide
  runningInited := by decide
  oneInit := by decide
  stoppedAtRest := by decide
  configLegal := fun _ => regsLegal_base
  atShb := by decide
  atGpl := by decide
  atConv := by decide
  atUpd := fun h => absurd h (by decide)
  lastIsPrev := Chan.forall_iff.2 (by decide)
  gateIsStep := Chan.forall_iff.2 (by decide)

theorem witness_IllegalOpWordsAreRefused :
    (asking 0xFF resting).agenda = .outside 0xFF :: [] ∧
      decode (asking 0xFF resting).fusionPresent 0xFF = .error .reservedBitSet := by decide

theorem witness_DecodedWordEncodesBack : decode false 0x24 = .ok (.wrdy .c4) ∧ decode true 0xE0 = .ok .amb := by decide

theorem witness_TraceDecodesToItself : ∀ i ∈ [Instr.wrdy .c4, .amb], WellFormed true i = true := by decide

theorem witness_StepPerformsTheDecodedOperation :
    (resting.agenda = [] ∧ decode resting.fusionPresent (workerWord resting) = .ok .susp)
    ∧ ({ inFrame with agenda := [.worker, .pulseEnd] }.agenda = .worker :: [.pulseEnd]
      ∧ decode inFrame.fusionPresent (workerWord { inFrame with agenda := [.worker, .pulseEnd] }) = .ok .gpl)
    ∧ ((asking 0xA4 inFrame).agenda = .outside 0xA4 :: [] ∧ decode inFrame.fusionPresent 0xA4 = .ok (.rdl .c4)
      ∧ (Instr.rdl .c4).agent ≠ .worker)
    ∧ ((asking 0x84 inFrame).agenda = .outside 0x84 :: [] ∧ decode inFrame.fusionPresent 0x84 = .ok (.gate .c4)
      ∧ (Instr.gate .c4).agent = .worker)
    ∧ { resting with agenda := [.pulseEnd] }.agenda = .pulseEnd :: [] := by decide

theorem witness_PlacedWordIsPerformedNext :
    WellFormed State.reset.fusionPresent (.gate .c4) = true ∧ (Instr.gate .c4).agent = .worker
      ∧ WellFormed State.reset.fusionPresent .init = true ∧ Instr.init.agent ≠ .worker := by decide

theorem witness_WorkerFollowsTheTransitionTable_tick :
    (asking 0xC0 resting).agenda = .outside 0xC0 :: [] ∧ (asking 0xC0 resting).phase = .susp
      ∧ (asking 0xC0 resting).inited = true ∧ (asking 0xC0 resting).cfgErr = false
      ∧ (asking 0xC0 resting).stopped = false ∧ (asking 0xC0 resting).stopReq = false := by decide

theorem witness_WorkerFollowsTheTransitionTable_dropped_tick :
    (asking 0xC0 { resting with stopReq := true }).agenda = .outside 0xC0 :: []
      ∧ (asking 0xC0 { resting with stopReq := true }).phase = .susp
      ∧ (asking 0xC0 { resting with stopReq := true }).ch = 0
      ∧ (asking 0xC0 { resting with stopReq := true }).stopReq = true := by decide

/-- The last permitted poll low, and every permitted poll high. -/
theorem witness_WorkerFollowsTheTransitionTable_wrdy :
    (nextMove (inCycle .wrdy .c4) = .worker ∧ (inCycle .wrdy .c4).phase = .wrdy ∧ (inCycle .wrdy .c4).ch = Chan.c4.code
      ∧ 1 ≤ (inCycle .wrdy .c4).cfg.maxPolls.get .c4)
    ∧ (2 < (inCycle .wrdy .c4).cfg.maxPolls.get .c4
      ∧ ((showing .c4 [true, true, false] (inCycle .wrdy .c4)).amps.get .c4).nth .c4 2 = false)
    ∧ (∀ j, j < (inCycle .wrdy .c4).cfg.maxPolls.get .c4 →
      ((showing .c4 [true, true, true] (inCycle .wrdy .c4)).amps.get .c4).nth .c4 j = true) := by decide

/-- The last bit of a frame, and the last but one; the last extra pulse of three, and the first. -/
theorem witness_WorkerFollowsTheTransitionTable_frame :
    (nextMove { inCycle .shb .c4 with bitCnt := 23 } = .worker ∧ { inCycle .shb .c4 with bitCnt := 23 }.bitCnt.toNat < 24)
    ∧ { inCycle .shb .c4 with bitCnt := 22 }.bitCnt.toNat < 24
    ∧ (∀ k ∈ [0#2, 2#2],
      { inCycle .gpl .c1 with gCnt := k, cfg := { regsOf baseRecord with extra := ⟨3, 1, 1, 1⟩ } }.gCnt.toNat
        < ({ regsOf baseRecord with extra := ⟨3, 1, 1, 1⟩ }.extra.get .c1).toNat) := by decide

theorem witness_WorkerFollowsTheTransitionTable_rest :
    (nextMove resting = .worker ∧ resting.phase = .susp ∧ resting.ch = 0)
    ∧ nextMove { inCycle .conv .c4 with agenda := [.worker, .outside 0xC0] } = .worker
    ∧ (∀ p ∈ [Phase.clkl, .conv, .dec, .upd, .gate, .next], nextMove (inCycle p .c4) = .worker ∧ (inCycle p .c4).phase = p
      ∧ (inCycle p .c4).ch = Chan.c4.code ∧ (inCycle p .c4).ch = 4)
    ∧ (inCycle .next .c3).ch.toNat < 4 := by decide

/-- `MAX_POLLS` 3 with the last poll low, all three high, and `MAX_POLLS` 1 with its one poll low. -/
theorem witness_WrdyWaitsForALowLineUpToTheBound :
    1 ≤ (inCycle .wrdy .c4).cfg.maxPolls.get .c4
    ∧ (2 < (inCycle .wrdy .c4).cfg.maxPolls.get .c4
      ∧ (∀ i, i < 2 → ((showing .c4 [true, true, false] (inCycle .wrdy .c4)).amps.get .c4).nth .c4 i = true)
      ∧ ((showing .c4 [true, true, false] (inCycle .wrdy .c4)).amps.get .c4).nth .c4 2 = false)
    ∧ (∀ i, i < (inCycle .wrdy .c4).cfg.maxPolls.get .c4 →
      ((showing .c4 [true, true, true] (inCycle .wrdy .c4)).amps.get .c4).nth .c4 i = true)
    ∧ (1 ≤ { regsOf baseRecord with maxPolls := ⟨1, 1, 1, 1⟩ }.maxPolls.get .c3
      ∧ ((showing .c3 [false] (inCycle .wrdy .c3)).amps.get .c3).nth .c3 0 = false) := by decide

theorem witness_WrdyPollsOnceUnderAZeroBound : State.reset.cfg.maxPolls.get .c1 = 0 := by decide

/-- The first and the last bit of a frame. -/
theorem witness_ShbShiftsOneBitIn : ∀ k ∈ [0#5, 23#5],
    { inCycle .shb .c4 with rdy := true, bitCnt := k }.rdy = true
      ∧ { inCycle .shb .c4 with rdy := true, bitCnt := k }.bitCnt.toNat < 24
      ∧ { inCycle .shb .c4 with rdy := true, bitCnt := k }.sck = false := by decide

theorem witness_FrameAssemblesTheWord :
    (inCycle .shb .c4).agenda = [] ∧ (inCycle .shb .c4).phase = .shb ∧ (inCycle .shb .c4).ch = Chan.c4.code
      ∧ (inCycle .shb .c4).bitCnt = 0 := by decide

/-- The one extra pulse of a frame with `EXTRA = 1`, and the last of one with `EXTRA = 3`. -/
theorem witness_GplIssuesOnePulse :
    (inFrame.ch = Chan.c3.code ∧ inFrame.bitCnt = 24 ∧ inFrame.gCnt.toNat < (inFrame.cfg.extra.get .c3).toNat
      ∧ inFrame.sck = false)
    ∧ (2#2).toNat < ({ regsOf baseRecord with extra := ⟨1, 1, 3, 1⟩ }.extra.get .c3).toNat := by decide

theorem witness_ConvConvertsTheWord :
    { inCycle .conv .c4 with bitCnt := 24, gCnt := 1 }.ch = Chan.c4.code
      ∧ { inCycle .conv .c4 with bitCnt := 24, gCnt := 1 }.bitCnt = 24
      ∧ { inCycle .conv .c4 with bitCnt := 24, gCnt := 1 }.gCnt = (inCycle .conv .c4).cfg.extra.get .c4 := by decide

theorem witness_ConversionIsExactAndBijective :
    0x800000 ≤ (0x800000#24).toNat ∧ (0x7FFFFF#24).toNat < 0x800000
      ∧ (0x7FFFFF#24).toNat < (0x800000#24).toNat ∧ (-8388608 : Int) ≤ -8388608 ∧ (-8388608 : Int) ≤ 8388607
      ∧ (8388607 : Int) ≤ 8388607 := by decide

theorem witness_DecAppliesTheThresholdPolicy :
    (inCycle .dec .c4).smpTo = true ∧ { inCycle .dec .c4 with smpTo := false }.smpTo = false := by decide

/-- A state about to perform `DEC 3` on the sample `w` after the weight `p`. -/
def deciding (p w : Word24) : State :=
  holding .c3 ⟨p, false, p, false⟩ { inCycle .dec .c3 with smpTo := false, smpVal := w }

theorem witness_DecWorkedCases :
    ∀ p ∈ [((0 : Word24), (1500 : Word24)), (0, 900), (2000, 2500), (2000, 3500)],
      (deciding p.1 p.2).smpTo = false ∧ (deciding p.1 p.2).cfg.threshold = 1000
      ∧ ((deciding p.1 p.2).bank.get .c3).prev = p.1 ∧ (deciding p.1 p.2).smpVal = p.2 :=
  fun _ _ => ⟨rfl, rfl, rfl, rfl⟩

theorem witness_DecFormsOfTheComparisonAgree : { inCycle .dec .c4 with smpTo := false }.smpTo = false := by decide

theorem witness_UpdWritesOneEntry : (inCycle .upd .c4).smpTo = true ∧ atUpdate.smpTo = false := by decide

theorem witness_TimeoutHoldsWeightAndGate :
    (holding .c3 ⟨1000, false, 1000, true⟩ (inCycle .dec .c3)).smpTo = true := by decide

theorem witness_RdlAnswersTheSnapshot :
    ∀ w ∈ [0xA0#8, 0xA5#8, 0xA6#8, 0xA7#8], (asking w inFrame).agenda = .outside w :: [] := by decide

theorem witness_AmbSetsTheOverrideWhereItExists :
    { resting with fusionPresent := true }.fusionPresent = true
    ∧ ((asking 0xE0 resting).fusionPresent = false ∧ (asking 0xE0 resting).agenda = .outside 0xE0 :: [])
    ∧ { resting with agenda := [.pulseEnd] }.agenda = .pulseEnd :: [] := by decide

theorem witness_PackedFormatsHoldTheirFields : 24 ≤ 31 ∧ 31 < 32 := by decide

/-- A legal record with the boundary values of each range, and an illegal one. -/
theorem witness_InitLoadsALegalRecordOrFails :
    ((offering { baseRecord with extra := ⟨1, 3, 1, 3⟩, maxPolls := ⟨1, 1, 1, 1⟩, tickPeriod := 1 }).sched = .idle
      ∧ (offering baseRecord).inited = false ∧ (offering baseRecord).cfgErr = false
      ∧ configOk (offered (offering { baseRecord with extra := ⟨1, 3, 1, 3⟩, maxPolls := ⟨1, 1, 1, 1⟩, tickPeriod := 1 }))
        = true)
    ∧ configOk (offered (offering { baseRecord with extra := ⟨1, 4, 1, 1⟩ })) = false := by decide

theorem witness_SecondInitIsRefused :
    resting.inited = true ∧ { State.reset with cfgErr := true }.cfgErr = true ∧ (inCycle .clkl .c1).sched = .running
      ∧ State.reset.inited = false := by decide

theorem witness_TickStartsACycleOrIsDropped :
    (resting.phase = .susp ∧ resting.inited = true ∧ resting.cfgErr = false ∧ resting.stopped = false
      ∧ resting.stopReq = false)
    ∧ (inCycle .shb .c2).phase ≠ .susp ∧ State.reset.inited = false ∧ { State.reset with cfgErr := true }.cfgErr = true
    ∧ { resting with stopReq := true, stopped := true }.stopped = true
    ∧ { resting with stopReq := true }.stopReq = true := by decide

theorem witness_NextMovesToTheNextChannel :
    (inCycle .next .c3).ch.toNat < 4 ∧ 4 ≤ (inCycle .next .c4).ch.toNat ∧ 4 ≤ { resting with ch := 7 }.ch.toNat := by
  decide

theorem witness_SuspHoldsEverything :
    (resting.phase = .susp ∧ resting.stopReq = false)
    ∧ ({ resting with stopReq := true }.phase = .susp ∧ { resting with stopReq := true }.stopReq = true)
    ∧ inFrame.phase ≠ .susp := by decide

theorem witness_StopIsHonouredAtTheBoundary :
    { resting with stopReq := true }.agenda = [] ∧ { resting with stopReq := true }.stopReq = true
      ∧ { resting with stopReq := true }.phase = .susp := by decide

theorem witness_EveryStepKeepsTheInvariant :
    Invariant inFrame ∧ step inFrame = .next (nextOf (step inFrame)) := ⟨invariant_inFrame, rfl⟩

theorem witness_TheWorkerAlwaysMoves :
    Invariant resting ∧ resting.agenda = []
    ∧ Invariant { inFrame with agenda := [.worker] } ∧ { inFrame with agenda := [.worker] }.agenda = .worker :: []
    ∧ Invariant (asking 0xC0 inFrame) ∧ (asking 0xC0 inFrame).agenda = .outside 0xC0 :: []
    ∧ decode (asking 0xC0 inFrame).fusionPresent 0xC0 = .ok .tick ∧ Instr.tick.agent ≠ .worker :=
  ⟨invariant_resting, by decide, { invariant_inFrame with }, by decide, { invariant_inFrame with }, by decide, by decide,
    by decide⟩

/-- Each flag of the table changed by its writer. -/
theorem witness_EveryFlagHasItsWriters :
    ((nextOf (exec (.upd .c4) atUpdate)).bank.get .c4).step ≠ (atUpdate.bank.get .c4).step
    ∧ ((nextOf (exec (.upd .c4) atUpdate)).bank.get .c4).lastTo ≠ (atUpdate.bank.get .c4).lastTo
    ∧ (nextOf (exec (.wrdy .c1) (showing .c1 [false] (inCycle .wrdy .c1)))).rdy ≠ (inCycle .wrdy .c1).rdy
    ∧ (nextOf (exec (.wrdy .c1) (showing .c1 [true, true, true] { inCycle .wrdy .c1 with smpTo := false }))).smpTo = true
    ∧ (nextOf (exec .conv (inCycle .conv .c1))).smpTo = false
    ∧ (nextOf (exec (.dec .c4) { atUpdate with ns := false })).ns = true
    ∧ (nextOf (exec .tick resting)).sched ≠ resting.sched
    ∧ (nextOf (exec .init (offering baseRecord))).inited ≠ (offering baseRecord).inited
    ∧ (nextOf (exec .init (offering { baseRecord with tickPeriod := 0 }))).cfgErr ≠ State.reset.cfgErr
    ∧ (nextOf (exec .stop resting)).stopReq ≠ resting.stopReq
    ∧ (nextOf (exec .susp { resting with stopReq := true })).stopped ≠ resting.stopped := by decide

theorem witness_StepAndGateChangeOnlyInTheirOperations :
    (Invariant atUpdate ∧ step atUpdate = .next (nextOf (step atUpdate))
      ∧ ((nextOf (step atUpdate)).bank.get .c4).step ≠ (atUpdate.bank.get .c4).step)
    ∧ (Invariant atGate ∧ step atGate = .next (nextOf (step atGate))
      ∧ (nextOf (step atGate)).gate.get .c4 ≠ atGate.gate.get .c4) :=
  ⟨⟨invariant_atUpdate, rfl, by decide⟩, invariant_atGate, rfl, by decide⟩

theorem witness_TheWorkerIsTheSoleWriter :
    (Instr.rdl .c2).agent ≠ .worker ∧ exec (.rdl .c2) inFrame = .next (nextOf (exec (.rdl .c2) inFrame)) :=
  ⟨by decide, rfl⟩

theorem witness_OtherEntriesAreNeitherReadNorWritten :
    Instr.upd .c4 ≠ .dec .c2 ∧ Instr.upd .c4 ≠ .upd .c2 ∧ Instr.upd .c4 ≠ .gate .c2 ∧ Instr.upd .c4 ≠ .rdl .c2
      ∧ exec (.upd .c4) atUpdate = .next (nextOf (exec (.upd .c4) atUpdate)) :=
  ⟨by decide, by decide, by decide, by decide, rfl⟩

theorem witness_ConfigurationIsFrozenAfterInit :
    (exec .init (offering baseRecord) = .next (nextOf (exec .init (offering baseRecord)))
      ∧ (nextOf (exec .init (offering baseRecord))).cfg ≠ (offering baseRecord).cfg)
    ∧ (inFrame.inited = true ∧ run 2 inFrame = .next (nextOf (run 2 inFrame))) :=
  ⟨⟨rfl, by decide⟩, by decide, rfl⟩

theorem witness_OutsideMovesDoNotDisturbACycle :
    Invariant inFrame ∧ inFrame.phase ≠ .susp ∧ Instr.stop.agent ≠ .worker
      ∧ exec .stop inFrame = .next (nextOf (exec .stop inFrame)) :=
  ⟨invariant_inFrame, by decide, by decide, rfl⟩

/-- Each kind of event, recorded by its operation. -/
theorem witness_EachOperationReachesItsLinesOnly :
    Event.lineWrite (some 0) true ∈ (nextOf (exec .gpl inFrame)).trace
    ∧ Event.lineRead (some 1) true ∈ (nextOf (exec (.shb .c1) (showing .c1 [true] (inCycle .shb .c1)))).trace
    ∧ Event.setGate .c4 true ∈ (nextOf (exec (.gate .c4) atGate)).trace
    ∧ Event.answer .c2 ⟨0, false, true⟩ ∈ (nextOf (exec (.rdl .c2) inFrame)).trace
    ∧ Event.initResult true ∈ (nextOf (exec .init (offering baseRecord))).trace := by decide

/-- Both conditions raised. -/
theorem witness_ConditionsAreRaisedAsListed :
    Event.raised (.deviceNotReady .c3) ∈ (nextOf (exec (.wrdy .c3) (showing .c3 [true, true, true] (inCycle .wrdy .c3)))).trace
    ∧ Event.raised .configurationError ∈ (nextOf (exec .init (offering { baseRecord with tickPeriod := 0 }))).trace := by
  decide

/-- The last channel about to time out under the least bound, one poll. -/
def timingOut : State :=
  showing .c4 [true] { inCycle .clkl .c4 with cfg := { regsOf baseRecord with maxPolls := ⟨1, 1, 1, 1⟩ } }

/-- A wait that ends at the last permitted poll, and one that does not end. -/
theorem witness_AcquisitionGivesTheSampleAndItsTrace :
    (startOfCycle.agenda = [] ∧ startOfCycle.phase = .clkl ∧ startOfCycle.ch = Chan.c1.code
      ∧ 1 ≤ startOfCycle.cfg.maxPolls.get .c1 ∧ 1 ≤ (startOfCycle.cfg.extra.get .c1).toNat
      ∧ (startOfCycle.amps.get .c1).firstLow .c1 (startOfCycle.cfg.maxPolls.get .c1) = some 2)
    ∧ (timingOut.agenda = [] ∧ timingOut.phase = .clkl ∧ timingOut.ch = Chan.c4.code
      ∧ 1 ≤ timingOut.cfg.maxPolls.get .c4 ∧ 1 ≤ (timingOut.cfg.extra.get .c4).toNat
      ∧ (timingOut.amps.get .c4).firstLow .c4 (timingOut.cfg.maxPolls.get .c4) = none) := by decide

theorem witness_AcquisitionCountsEventsAndPulses :
    (startOfCycle.agenda = [] ∧ startOfCycle.phase = .clkl ∧ startOfCycle.ch = Chan.c1.code
      ∧ 1 ≤ startOfCycle.cfg.maxPolls.get .c1 ∧ 1 ≤ (startOfCycle.cfg.extra.get .c1).toNat
      ∧ (startOfCycle.amps.get .c1).firstLow .c1 (startOfCycle.cfg.maxPolls.get .c1) = some 2)
    ∧ (timingOut.agenda = [] ∧ timingOut.phase = .clkl ∧ timingOut.ch = Chan.c4.code
      ∧ 1 ≤ timingOut.cfg.maxPolls.get .c4 ∧ 1 ≤ (timingOut.cfg.extra.get .c4).toNat
      ∧ (timingOut.amps.get .c4).firstLow .c4 (timingOut.cfg.maxPolls.get .c4) = none) :=
  witness_AcquisitionGivesTheSampleAndItsTrace

/-- A channel that gives 1500, and the last channel timing out. -/
theorem witness_ChannelTurnUpdatesItsChannelOnly :
    (startOfCycle.agenda = [] ∧ startOfCycle.phase = .clkl ∧ startOfCycle.ch = Chan.c1.code
      ∧ 1 ≤ startOfCycle.cfg.maxPolls.get .c1 ∧ 1 ≤ (startOfCycle.cfg.extra.get .c1).toNat
      ∧ (startOfCycle.amps.get .c1).sample .c1 (startOfCycle.cfg.maxPolls.get .c1) = .value 1500)
    ∧ (timingOut.agenda = [] ∧ timingOut.phase = .clkl ∧ timingOut.ch = Chan.c4.code
      ∧ 1 ≤ timingOut.cfg.maxPolls.get .c4 ∧ 1 ≤ (timingOut.cfg.extra.get .c4).toNat
      ∧ (timingOut.amps.get .c4).sample .c4 (timingOut.cfg.maxPolls.get .c4) = .timeout) := by decide

theorem witness_CycleIsAFunctionOfBankConfigAndLevels :
    startOfCycle.agenda = [] ∧ startOfCycle.phase = .clkl ∧ startOfCycle.ch = 1
      ∧ (∀ c, startOfCycle.cfg.extra.get c ≠ 0) ∧ (∀ c, 1 ≤ startOfCycle.cfg.maxPolls.get c) :=
  ⟨by decide, by decide, by decide, Chan.forall_iff.2 (by decide), Chan.forall_iff.2 (by decide)⟩

/-- Two environments of channel 2 that give a Timeout and a Value. -/
theorem witness_ChannelsAreIndependentInACycle :
    startOfCycle.agenda = [] ∧ startOfCycle.phase = .clkl ∧ startOfCycle.ch = 1
      ∧ (∀ c, startOfCycle.cfg.extra.get c ≠ 0)
      ∧ (startOfCycle.amps.get .c2).sample .c2 3 = .timeout
      ∧ (cycleLevels.get .c4).sample .c2 3 = .value 0x7FFFFF :=
  ⟨by decide, by decide, by decide, Chan.forall_iff.2 (by decide), by decide, by decide⟩

theorem witness_AfterAStopNoCycleRuns :
    { resting with stopReq := true }.stopReq = true ∧ { resting with stopReq := true }.phase = .susp
      ∧ { resting with stopReq := true }.sck = false
      ∧ isNext (run 2 (asking 0xC0 { resting with stopReq := true, stopped := true })) = true := by decide

theorem witness_ConfigurationErrorIsForEver :
    { State.reset with cfgErr := true }.cfgErr = true ∧ { State.reset with cfgErr := true }.phase = .susp
      ∧ isNext (run 2 (asking 0xC0 { State.reset with cfgErr := true })) = true := by decide

/-- An environment in which the tick source and the worker take turns for ever. -/
def alternating (n : Nat) : Move := if n % 2 = 0 then .outside (encode .tick) else .worker

/-- Every other moment is the worker's, and every other one the tick source's, so the block is served fairly. -/
theorem fair_alternating : Fair alternating resting where
  tick n u hu ha := by
    have hag : u.agenda = [] := runUnder_agenda_nil rfl hu
    rcases Nat.mod_two_eq_zero_or_one n with hn | hn
    · exact ⟨n, Nat.le_refl n, u, ⟨hu, by simp [popMove_askMove hag, alternating, hn]⟩, ha⟩
    · have hr : u.phase = .susp ∧ u.stopReq = false := by simp_all [tickAccepted]
      have hm : nextMove (askMove (alternating n) u) = .worker := by simp [popMove_askMove hag, alternating, hn]
      have hs : runUnder alternating (n + 1) resting = .next u := by
        rw [runUnder_succ hu, step_of_worker hm, (popMove_askMove hag).2]
        rw [show workerWord (askMove (alternating n) u) = workerWord u from rfl,
          perform_worker _ ((decode_workerWord_plain u).1 hr.1) rfl]
        simp [exec, execSusp, stopDue, hr.2]
      exact ⟨n + 1, by omega, u, ⟨hs, by
        rw [(popMove_askMove hag).1, alternating, if_pos (by omega)]⟩, ha⟩
  worker n u hu _ := by
    have hag : u.agenda = [] := runUnder_agenda_nil rfl hu
    rcases Nat.mod_two_eq_zero_or_one n with hn | hn
    · have hd : decode u.fusionPresent (encode .tick) = .ok .tick := by cases u.fusionPresent <;> decide
      have hm : nextMove (askMove (alternating n) u) = .outside (encode .tick) := by
        simp [popMove_askMove hag, alternating, hn]
      have hs : runUnder alternating (n + 1) resting = exec .tick u := by
        rw [runUnder_succ hu, step, hm, (popMove_askMove hag).2]
        simp [wordOf, perform, hd, mayPerform, Instr.agent]
      exact ⟨n + 1, _, by omega, hs, by
        rw [(popMove_askMove (runUnder_agenda_nil rfl hs)).1, alternating, if_neg (by omega)]⟩
    · exact ⟨n, u, Nat.le_refl n, hu, by simp [popMove_askMove hag, alternating, hn]⟩

/-- A least bound; a fair environment; an environment that never ticks. -/
theorem witness_FairnessMakesCyclesRecurForEver :
    (1 ≤ timingOut.cfg.maxPolls.get .c4)
    ∧ (Invariant resting ∧ resting.inited = true ∧ AllMoves (Rightful resting.fusionPresent) alternating resting
      ∧ WorkerFair alternating resting ∧ Fair alternating resting)
    ∧ (resting.inited = true ∧ resting.phase = .susp ∧ resting.ch = 0
      ∧ AllMoves (Rightful resting.fusionPresent) (fun _ => .outside (encode (.rdl .c4))) resting
      ∧ AllMoves (· ≠ .outside (encode .tick)) (fun _ => .outside (encode (.rdl .c4))) resting) :=
  ⟨by decide,
    ⟨invariant_resting, by decide, ⟨nofun, fun n => by
      unfold alternating
      split
      · exact ⟨.tick, by decide, by decide, by decide⟩
      · trivial⟩, fair_alternating.worker, fair_alternating⟩,
    by decide, by decide, by decide, ⟨nofun, fun _ => ⟨.rdl .c4, by decide, by decide, by decide⟩⟩,
    ⟨nofun, fun _ => (by decide : Move.outside (encode (.rdl .c4)) ≠ .outside (encode .tick))⟩⟩

/-- The first tick of that environment starts a cycle. -/
theorem test_alternating_starts_a_cycle : (nextOf (runUnder alternating 1 resting)).phase = .clkl := by decide

end Sys2Proof.Tests
end

section
/-! Every step keeps the invariant. Inside a cycle the invariant is taken apart into what holds all through the turn of
one channel (`Turn`) and what the turn has reached at its phase (`Reached`); each operation of the worker then leaves a
`Turn` and reaches its next phase. -/

namespace Sys2Proof

theorem Chan.code_ne_zero (c : Chan) : c.code ≠ 0 := by cases c <;> decide

theorem Chan.code_toNat_le (c : Chan) : c.code.toNat ≤ 4 := by cases c <;> decide

/-- The values 1 to 4 of `CH` are the codes of the channels (10_state.md R29). -/
theorem Chan.exists_code : ∀ ch : BitVec 3, ch ≠ 0 → ch.toNat ≤ 4 → ∃ c : Chan, ch = c.code
  | 0, h, _ => absurd rfl h
  | 1, _, _ => ⟨.c1, rfl⟩
  | 2, _, _ => ⟨.c2, rfl⟩
  | 3, _, _ => ⟨.c3, rfl⟩
  | 4, _, _ => ⟨.c4, rfl⟩
  | 5, _, h => absurd h (by decide)
  | 6, _, h => absurd h (by decide)
  | 7, _, h => absurd h (by decide)

namespace Machine

/-- What holds all through the turn of channel `c` in a cycle. -/
structure Turn (c : Chan) (s : State) : Prop where
  channel : s.ch = c.code
  clockLow : s.sck = false
  running : s.sched = .running
  inited : s.inited = true
  noError : s.cfgErr = false
  notStopped : s.stopped = false
  configLegal : RegsLegal s.cfg
  lastIsPrev : ∀ d, (s.bank.get d).lastTo = false → (s.bank.get d).lastVal = (s.bank.get d).prev
  otherGates : ∀ d, d ≠ c → s.gate.get d = (s.bank.get d).step

/-- The gate of channel `c` shows its flag (42_channel_state.md R174). -/
def GateShown (c : Chan) (s : State) : Prop := s.gate.get c = (s.bank.get c).step

/-- What `UPD c` finds in `NP`, `NS` (41_step_detector.md R151, R155). -/
def Decided (c : Chan) (s : State) : Prop :=
  (s.smpTo = false → s.np = s.smpVal)
    ∧ (s.smpTo = true → s.np = (s.bank.get c).prev ∧ s.ns = (s.bank.get c).step)

/-- What the turn of channel `c` has reached when it is at a phase. -/
def Reached (c : Chan) (s : State) : Phase → Prop
  | .susp => False
  | .clkl => GateShown c s
  | .wrdy => GateShown c s
  | .shb => GateShown c s ∧ s.rdy = true ∧ s.bitCnt.toNat < 24
  | .gpl => GateShown c s ∧ s.rdy = true ∧ s.bitCnt = 24 ∧ s.gCnt.toNat < (s.cfg.extra.get c).toNat
  | .conv => GateShown c s ∧ s.rdy = true ∧ s.bitCnt = 24 ∧ s.gCnt = s.cfg.extra.get c
  | .dec => GateShown c s
  | .upd => GateShown c s ∧ Decided c s
  | .gate => True
  | .next => GateShown c s

theorem Reached.ne_susp {c : Chan} {s : State} {p : Phase} (h : Reached c s p) : p ≠ .susp := by
  rintro rfl
  exact h

/-- Only between `UPD c` and `GATE c` may the gate of `c` not show its flag. -/
theorem Reached.gateShown {c : Chan} {s : State} {p : Phase} (h : Reached c s p) (hp : p ≠ .gate) : GateShown c s := by
  cases p with
  | susp => exact h.elim
  | gate => exact absurd rfl hp
  | clkl | wrdy | dec | next => exact h
  | shb | gpl | conv | upd => exact h.1

/-- A turn and what it has reached give the invariant. -/
theorem Turn.invariant {c : Chan} {s : State} (h : Turn c s) (hr : Reached c s s.phase) : Invariant s where
  restsAtZero := iff_of_false hr.ne_susp (h.channel ▸ c.code_ne_zero)
  channelLegal := h.channel ▸ c.code_toNat_le
  clockLow := h.clockLow
  cycleStarted := fun _ => h.running
  runningInited := fun _ => h.inited
  oneInit := fun _ => h.noError
  stoppedAtRest := by simp [h.notStopped]
  configLegal := fun _ => h.configLegal
  atShb := fun hp => by
    rw [hp] at hr
    exact hr.2
  atGpl := fun hp => by
    rw [hp] at hr
    rw [extraAt_of_channel h.channel]
    exact hr.2
  atConv := fun hp => by
    rw [hp] at hr
    rw [extraAt_of_channel h.channel]
    exact hr.2
  atUpd := fun hp d hd => by
    rw [hp] at hr
    obtain rfl : c = d := Chan.code_injective (h.channel.symm.trans hd)
    exact hr.2
  lastIsPrev := h.lastIsPrev
  gateIsStep := fun d => by
    rcases eq_or_ne d c with rfl | hd
    · rcases eq_or_ne s.phase .gate with hp | hp
      · exact .inr ⟨hp, h.channel⟩
      · exact .inl (hr.gateShown hp)
    · exact .inl (h.otherGates d hd)

/-- The other way: where `CH` names a channel, the invariant is that of a turn. -/
theorem Invariant.turn {c : Chan} {s : State} (hi : Invariant s) (hc : s.ch = c.code) :
    Turn c s ∧ Reached c s s.phase := by
  have hp : s.phase ≠ .susp := fun h => c.code_ne_zero (hc ▸ hi.restsAtZero.1 h)
  have hrun := hi.cycleStarted hp
  have hinit := hi.runningInited hrun
  have hother : ∀ d, d ≠ c → s.gate.get d = (s.bank.get d).step := fun d hd =>
    (hi.gateIsStep d).resolve_right fun h => hd (Chan.code_injective (h.2.symm.trans hc))
  have hshown : s.phase ≠ .gate → GateShown c s := fun h => (hi.gateIsStep c).resolve_right fun h' => h h'.1
  have hextra := extraAt_of_channel hc
  refine ⟨⟨hc, hi.clockLow, hrun, hinit, hi.oneInit hinit, ?_, hi.configLegal hinit, hi.lastIsPrev, hother⟩, ?_⟩
  · exact Bool.eq_false_iff.2 fun h => hp (hi.stoppedAtRest h).2
  · cases h : s.phase with
    | susp => exact hp h
    | clkl | wrdy | dec | next => exact hshown (by simp [h])
    | shb => exact ⟨hshown (by simp [h]), hi.atShb h⟩
    | gpl => exact ⟨hshown (by simp [h]), hextra ▸ hi.atGpl h⟩
    | conv => exact ⟨hshown (by simp [h]), hextra ▸ hi.atConv h⟩
    | upd => exact ⟨hshown (by simp [h]), hi.atUpd h c hc⟩
    | gate => trivial

/-! ### The operations of the worker inside a turn -/

section
variable {c : Chan} {s : State}

/-- `WRDY c` enters the frame with no bit counted, or goes to the decision. -/
theorem waitReady_keeps_invariant (ht : Turn c s) (hg : GateShown c s) : Invariant (waitReady c s) := by
  rcases waitReady_cases c s with ⟨j, _, e⟩ | e <;> rw [e]
  · exact Turn.invariant (c := c) { ht with } ⟨hg, rfl, Nat.zero_lt_succ _⟩
  · exact Turn.invariant (c := c) { ht with } hg

/-- `SHB c` counts one bit more, up to the 24th. -/
theorem shiftBit_keeps_invariant (b : Level) (ht : Turn c s) (hg : GateShown c s) (hr : s.rdy = true)
    (hb : s.bitCnt.toNat < 24) : Invariant (shiftBit b s) := by
  by_cases h : s.bitCnt + 1 = 24
  · rw [shiftBit_last _ h]
    have hpos : 0 < (s.cfg.extra.get c).toNat :=
      Nat.pos_of_ne_zero fun h0 => ht.configLegal.extra c (BitVec.eq_of_toNat_eq h0)
    exact Turn.invariant (c := c) { ht with } ⟨hg, hr, rfl, hpos⟩
  · rw [shiftBit_more _ h]
    have hlt : (s.bitCnt + 1).toNat < 24 := by bv_omega
    exact Turn.invariant (c := c) { ht with } ⟨hg, hr, hlt⟩

/-- `GPL` counts one pulse more, up to `EXTRA[c]`. -/
theorem countExtra_keeps_invariant (ht : Turn c s) (hg : GateShown c s) (hr : s.rdy = true) (hb : s.bitCnt = 24)
    (hn : s.gCnt.toNat < (s.cfg.extra.get c).toNat) : Invariant (countExtra s) := by
  have hx : extraAt s = s.cfg.extra.get c := extraAt_of_channel ht.channel
  by_cases h : s.gCnt + 1 = extraAt s
  · rw [countExtra_last h]
    exact Turn.invariant (c := c) { ht with } ⟨hg, hr, hb, hx⟩
  · rw [countExtra_more h]
    rw [hx] at h
    have hlt : (s.gCnt + 1).toNat < (s.cfg.extra.get c).toNat := by bv_omega
    exact Turn.invariant (c := c) { ht with } ⟨hg, hr, hb, hlt⟩

/-- `DEC c` decides from the sample (41_step_detector.md R151, R155). -/
theorem decision_decided (c : Chan) (s : State) :
    Decided c { s with
      np := (decision (s.bank.get c) (sampleOf s) s.cfg.threshold).1
      ns := (decision (s.bank.get c) (sampleOf s) s.cfg.threshold).2
      phase := .upd } := by
  refine ⟨fun (h : s.smpTo = false) => ?_, fun (h : s.smpTo = true) => ?_⟩ <;>
    simp [decision, sampleOf, rawSample, h]

/-- `UPD c` writes the entry of `c` so that a Value's two numbers agree (42_channel_state.md R168). -/
theorem upd_keeps_invariant {t : State} (ht : Turn c s) (hd : Decided c s) (h : exec (.upd c) s = .next t) :
    Invariant t := by
  injection h with h
  subst h
  refine Turn.invariant (c := c) { ht with lastIsPrev := fun d => ?_, otherGates := fun d hdc => ?_ } trivial
  · rcases eq_or_ne d c with rfl | hdc
    · simp only [csWrite_bank, PerCh.get_set_self]
      intro hv
      simp [hv, hd.1 hv]
    · simpa [hdc] using ht.lastIsPrev d
  · simpa [hdc] using ht.otherGates d hdc

/-- `GATE c` makes the gate of `c` show its flag. -/
theorem gate_keeps_invariant {t : State} (ht : Turn c s) (h : exec (.gate c) s = .next t) : Invariant t := by
  injection h with h
  subst h
  refine Turn.invariant (c := c) { ht with otherGates := fun d hdc => ?_ } (PerCh.get_set_self _ _ _)
  simpa [hdc] using ht.otherGates d hdc

/-- With its own gate shown too, a turn has every gate shown. -/
theorem Turn.gates (ht : Turn c s) (hg : GateShown c s) (d : Chan) : s.gate.get d = (s.bank.get d).step := by
  rcases eq_or_ne d c with rfl | hd
  · exact hg
  · exact ht.otherGates d hd

/-- After a turn with its own gate shown, the worker may begin the turn of any channel. -/
theorem Turn.begin (ht : Turn c s) (hg : GateShown c s) (d : Chan) : Invariant { s with ch := d.code, phase := .clkl } :=
  Turn.invariant (c := d) { ht with channel := rfl, otherGates := fun e _ => ht.gates hg e } (ht.gates hg d)

/-- After a turn with its own gate shown, the worker may rest. -/
theorem Turn.rest (ht : Turn c s) (hg : GateShown c s) : Invariant { s with ch := 0, phase := .susp } where
  restsAtZero := iff_of_true rfl rfl
  channelLegal := Nat.zero_le _
  clockLow := ht.clockLow
  cycleStarted := fun hp => absurd rfl hp
  runningInited := fun _ => ht.inited
  oneInit := fun _ => ht.noError
  stoppedAtRest := by simp [ht.notStopped]
  configLegal := fun _ => ht.configLegal
  atShb := nofun
  atGpl := nofun
  atConv := nofun
  atUpd := nofun
  lastIsPrev := ht.lastIsPrev
  gateIsStep := fun d => .inl (ht.gates hg d)

/-- `NEXT` begins the turn of the next channel, or ends the cycle after channel 4 (43_scheduler.md R193). -/
theorem next_keeps_invariant {t : State} (ht : Turn c s) (hg : GateShown c s) (h : exec .next s = .next t) :
    Invariant t := by
  injection h with h
  subst h
  rw [ht.channel]
  cases c with
  | c1 => exact ht.begin hg .c2
  | c2 => exact ht.begin hg .c3
  | c3 => exact ht.begin hg .c4
  | c4 => exact ht.rest hg

/-- Inside a cycle the operation at the worker's position keeps the invariant. -/
theorem exec_opAt_keeps_invariant {t : State} (hi : Invariant s) (hc : s.ch = c.code)
    (h : exec (opAt s.phase c) s = .next t) : Invariant t := by
  obtain ⟨ht, hr⟩ := hi.turn hc
  cases hp : s.phase <;> rw [hp] at h hr
  case susp => exact hr.elim
  case clkl =>
    injection h with h
    exact h ▸ Turn.invariant (c := c) { ht with clockLow := if_pos rfl } hr
  case wrdy =>
    injection h with h
    exact h ▸ waitReady_keeps_invariant ht hr
  case shb =>
    obtain ⟨hg, hrdy, hb⟩ := hr
    injection h with h
    exact h ▸ shiftBit_keeps_invariant (c := c) _ { ht with clockLow := pulse_sck s } hg hrdy hb
  case gpl =>
    obtain ⟨hg, hrdy, hb, hn⟩ := hr
    injection h with h
    exact h ▸ countExtra_keeps_invariant (c := c) { ht with clockLow := pulse_sck s } hg hrdy hb hn
  case conv =>
    injection h with h
    exact h ▸ Turn.invariant (c := c) { ht with } hr.1
  case dec =>
    injection h with h
    exact h ▸ Turn.invariant (c := c) { ht with } ⟨hr, decision_decided c s⟩
  case upd => exact upd_keeps_invariant ht hr.2 h
  case gate => exact gate_keeps_invariant ht h
  case next => exact next_keeps_invariant ht hr h

end

/-! ### The operations outside a cycle -/

section
variable {s t : State}

/-- `SUSP` stops only over a request, where it rests. -/
theorem susp_keeps_invariant (hi : Invariant s) (h : exec .susp s = .next t) : Invariant t := by
  have hcases := exec_next_cases h
  simp only [reduceCtorEq, false_and, exists_false, or_false, true_and] at hcases
  rcases hcases with rfl | ⟨rfl, hreq, hp⟩
  · exact hi
  · exact { hi with stoppedAtRest := fun _ => ⟨hreq, hp⟩ }

/-- A record that passes `CONFIG_OK` gives legal registers (43_scheduler.md R187). -/
theorem regsLegal_of_configOk {r : CfgRecord} (h : configOk r = true) : RegsLegal (regsOf r) := by
  simp only [configOk, Bool.and_eq_true, List.all_eq_true, decide_eq_true_eq] at h
  obtain ⟨⟨⟨⟨hassigned, hdistinct⟩, hextra⟩, hpolls⟩, hperiod⟩ := h
  refine ⟨fun l hl => Option.isSome_iff_ne_none.1 (hassigned l hl), hdistinct, fun c => ?_, fun c => ?_, hperiod⟩
  · obtain ⟨h1, h3⟩ := hextra _ (PerCh.mem_toList.2 ⟨c, rfl⟩)
    simp only [regsOf, PerCh.get_map]
    generalize r.extra.get c = n at h1 h3
    interval_cases n <;> decide
  · exact hpolls _ (PerCh.mem_toList.2 ⟨c, rfl⟩)

theorem initAllowed_iff : initAllowed s = true ↔ s.sched = .idle ∧ s.inited = false ∧ s.cfgErr = false := by
  simp [initAllowed, and_assoc]

theorem tickAccepted_iff :
    tickAccepted s = true ↔
      s.phase = .susp ∧ s.inited = true ∧ s.cfgErr = false ∧ s.stopped = false ∧ s.stopReq = false := by
  simp [tickAccepted, and_assoc]

/-- While Idle the worker rests. -/
theorem Invariant.susp_of_idle (hi : Invariant s) (hidle : s.sched = .idle) : s.phase = .susp := by
  by_contra hp
  exact absurd (hidle.symm.trans (hi.cycleStarted hp)) (by decide)

/-- `INIT` loads a legal configuration, or sets `CFG_ERR` and never `INITED`. -/
theorem init_keeps_invariant (hi : Invariant s) (h : exec .init s = .next t) : Invariant t := by
  have hcases := exec_next_cases h
  simp only [reduceCtorEq, false_and, exists_false, false_or, or_false, true_and] at hcases
  obtain ⟨ha, hcases⟩ := hcases
  obtain ⟨hidle, hinit, herr⟩ := initAllowed_iff.1 ha
  have hp := hi.susp_of_idle hidle
  rcases hcases with ⟨hok, rfl⟩ | ⟨_, rfl⟩
  · exact { hi with
      clockLow := rfl
      runningInited := fun _ => rfl
      oneInit := fun _ => herr
      configLegal := fun _ => regsLegal_of_configOk hok
      atGpl := fun hg => by simp [hp] at hg
      atConv := fun hg => by simp [hp] at hg }
  · exact { hi with oneInit := fun hs => absurd (hinit.symm.trans hs) (by decide) }

/-- `TICK` begins the turn of channel 1, or is dropped (43_scheduler.md R190). -/
theorem tick_keeps_invariant (hi : Invariant s) (h : exec .tick s = .next t) : Invariant t := by
  have hcases := exec_next_cases h
  simp only [reduceCtorEq, false_and, exists_false, false_or, or_false, true_and] at hcases
  rcases hcases with ⟨ha, rfl⟩ | ⟨_, rfl⟩
  · obtain ⟨hp, hinit, herr, hstop, _⟩ := tickAccepted_iff.1 ha
    have hgates : ∀ d, s.gate.get d = (s.bank.get d).step := fun d =>
      (hi.gateIsStep d).resolve_right fun h => by simp [hp] at h
    exact Turn.invariant (c := .c1)
      { hi with
        channel := rfl
        running := rfl
        inited := hinit
        noError := herr
        notStopped := hstop
        configLegal := hi.configLegal hinit
        otherGates := fun d _ => hgates d }
      (hgates .c1)
  · exact hi

/-- An operation of an agent outside the block keeps the invariant. -/
theorem exec_outside_keeps_invariant {i : Instr} (hi : Invariant s) (ha : i.agent ≠ .worker)
    (h : exec i s = .next t) : Invariant t := by
  cases i with
  | rdl c =>
    injection h with h
    exact h ▸ { hi with }
  | init => exact init_keeps_invariant hi h
  | tick => exact tick_keeps_invariant hi h
  | stop =>
    injection h with h
    exact h ▸ { hi with stoppedAtRest := fun hs => ⟨rfl, (hi.stoppedAtRest hs).2⟩ }
  | amb =>
    have hcases := exec_next_cases h
    simp only [reduceCtorEq, false_and, exists_false, false_or, true_and] at hcases
    obtain ⟨_, rfl⟩ := hcases
    exact { hi with }
  | susp | clkl | wrdy | shb | gpl | conv | dec | upd | gate | next => exact absurd rfl ha

/-! ### Every step -/

/-- Under the invariant the worker's word names `SUSP` at rest and the operation at its position inside a cycle. -/
theorem worker_performs {i : Instr} (hi : Invariant s) (hd : decode s.fusionPresent (workerWord s) = .ok i) :
    i = .susp ∨ ∃ c, s.ch = c.code ∧ i = opAt s.phase c := by
  rcases eq_or_ne s.phase .susp with hp | hp
  · have hw := (decode_workerWord_plain s).1 hp
    exact .inl (Except.ok.inj (hd.symm.trans hw))
  · obtain ⟨c, hc⟩ := Chan.exists_code s.ch (mt hi.restsAtZero.2 hp) hi.channelLegal
    exact .inr ⟨c, hc, Except.ok.inj (hd.symm.trans (decode_workerWord hc))⟩

/-- A step performs the operation of the worker's word or one of an agent outside the block, or ends the override
pulse (00_scope.md R15, 60_exceptions.md R230). -/
theorem step_agent_cases (h : step s = .next t) :
    (∃ i, decode s.fusionPresent (workerWord s) = .ok i ∧ exec i (popMove s) = .next t)
      ∨ (∃ i : Instr, i.agent ≠ .worker ∧ exec i (popMove s) = .next t)
      ∨ t = endPulse (popMove s) := by
  rcases step_next_cases h with ⟨own, w, i, hw, hd, hm, he⟩ | ⟨_, ht⟩
  · cases hn : nextMove s with
    | worker =>
      simp only [hn, wordOf, Option.some.injEq, Prod.mk.injEq] at hw
      exact .inl ⟨i, hw.2 ▸ hd, he⟩
    | outside v =>
      simp only [hn, wordOf, Option.some.injEq, Prod.mk.injEq] at hw
      rw [← hw.1] at hm
      exact .inr (.inl ⟨i, by simpa [mayPerform] using hm, he⟩)
    | pulseEnd => simp [hn, wordOf] at hw
  · exact .inr (.inr ht)

end

/-- Settles O35: the worker's operation keeps the invariant at rest and inside a turn, an outside agent's in every
state, and the end of the override pulse touches nothing of it. -/
theorem everyStepKeepsTheInvariant : Obligations.EveryStepKeepsTheInvariant := by
  intro s t hi h
  have hpop : Invariant (popMove s) := { hi with }
  rcases step_agent_cases h with ⟨i, hd, he⟩ | ⟨i, ha, he⟩ | rfl
  · rcases worker_performs hi hd with rfl | ⟨c, hc, rfl⟩
    · exact susp_keeps_invariant hpop he
    · exact exec_opAt_keeps_invariant hpop hc he
  · exact exec_outside_keeps_invariant hpop ha he
  · exact { hpop with }

end Machine

end Sys2Proof
end

section
/-! Who writes which register: the frame of `WRDY c` field by field, then the flags, the entries and the configuration
with their writers. -/

namespace Sys2Proof

theorem PerCh.set_comm {α : Type} (v : PerCh α) {c d : Chan} (h : c ≠ d) (x y : α) :
    (v.set d y).set c x = (v.set c x).set d y := by
  cases c <;> cases d <;> first | rfl | exact absurd rfl h

namespace Machine

/-- The registers `WRDY c` may write; it leaves every other one (40_adc_acquire.md R124). -/
theorem waitReady_frame (c : Chan) (s : State) :
    waitReady c s = { s with
      pollCnt := (waitReady c s).pollCnt
      rdy := (waitReady c s).rdy
      acc := (waitReady c s).acc
      bitCnt := (waitReady c s).bitCnt
      phase := (waitReady c s).phase
      smpTo := (waitReady c s).smpTo
      amps := (waitReady c s).amps
      trace := (waitReady c s).trace } := by
  rcases waitReady_cases c s with ⟨j, _, e⟩ | e <;> rw [e]

section
variable (c : Chan) (s : State)

@[simp] theorem waitReady_bank : (waitReady c s).bank = s.bank := by rw [waitReady_frame]
@[simp] theorem waitReady_ns : (waitReady c s).ns = s.ns := by rw [waitReady_frame]
@[simp] theorem waitReady_sched : (waitReady c s).sched = s.sched := by rw [waitReady_frame]
@[simp] theorem waitReady_inited : (waitReady c s).inited = s.inited := by rw [waitReady_frame]
@[simp] theorem waitReady_cfgErr : (waitReady c s).cfgErr = s.cfgErr := by rw [waitReady_frame]
@[simp] theorem waitReady_stopReq : (waitReady c s).stopReq = s.stopReq := by rw [waitReady_frame]
@[simp] theorem waitReady_stopped : (waitReady c s).stopped = s.stopped := by rw [waitReady_frame]
@[simp] theorem waitReady_cfg : (waitReady c s).cfg = s.cfg := by rw [waitReady_frame]
@[simp] theorem waitReady_fusionPresent : (waitReady c s).fusionPresent = s.fusionPresent := by rw [waitReady_frame]

end

/-- `WRDY c` sets `SMP_TO`, on Timeout, and never clears it. -/
theorem waitReady_smpTo {c : Chan} {s : State} (h : s.smpTo = true) : (waitReady c s).smpTo = true := by
  rcases waitReady_cases c s with ⟨j, _, e⟩ | e <;> rw [e]
  exact h

section
variable {i : Instr} {s t : State}

/-- 10_state.md R24, R46, R47: an entry is written by its `UPD` only, the configuration and its two flags by `INIT`
only, `FUSION_PRESENT` by none. -/
theorem exec_frame (h : exec i s = .next t) :
    (∀ d, i ≠ .upd d → t.bank.get d = s.bank.get d)
    ∧ (i ≠ .init → t.cfg = s.cfg ∧ t.inited = s.inited ∧ t.cfgErr = s.cfgErr)
    ∧ t.fusionPresent = s.fusionPresent := by
  rcases exec_next_cases h with ⟨_, rfl | ⟨rfl, _⟩⟩ | ⟨_, rfl⟩ | ⟨c, _, rfl⟩ | ⟨_, _, rfl⟩ | ⟨_, rfl⟩ | ⟨_, rfl⟩
    | ⟨_, _, rfl⟩ | ⟨c, rfl, rfl⟩ | ⟨_, _, rfl⟩ | ⟨_, ⟨_, rfl⟩ | ⟨_, rfl⟩⟩ | ⟨_, _, rfl⟩ | ⟨rfl, _, ⟨_, rfl⟩ | ⟨_, rfl⟩⟩
    | ⟨_, ⟨_, rfl⟩ | ⟨_, rfl⟩⟩ | ⟨_, rfl⟩ | ⟨_, _, rfl⟩
  case inr.inr.inr.inr.inr.inr.inr.inl => -- `UPD c`, which leaves the entry of any other channel
    refine ⟨fun d hd => PerCh.get_set_ne _ _ ?_, fun _ => ⟨rfl, rfl, rfl⟩, rfl⟩
    rintro rfl
    exact hd rfl
  all_goals simp

end

/-- Settles O37: the entries by the frame of the operations, every other flag operation by operation. -/
theorem everyFlagHasItsWriters : Obligations.EveryFlagHasItsWriters := by
  intro i s t h
  obtain ⟨hentry, _, _⟩ := exec_frame h
  have hupd : ∀ c, t.bank.get c ≠ s.bank.get c → i = .upd c := fun c => not_imp_comm.1 (hentry c)
  refine ⟨fun c hc => hupd c fun he => hc (he ▸ rfl), fun c hc => ?_, ?_⟩
  · obtain rfl := hupd c fun he => hc (he ▸ rfl)
    injection h with h
    simp [← h]
  rcases exec_next_cases h with ⟨rfl, rfl | ⟨rfl, hstop⟩⟩ | ⟨_, rfl⟩ | ⟨c, rfl, rfl⟩ | ⟨_, _, rfl⟩ | ⟨_, rfl⟩
    | ⟨rfl, rfl⟩ | ⟨_, rfl, rfl⟩ | ⟨_, _, rfl⟩ | ⟨_, _, rfl⟩ | ⟨_, ⟨_, rfl⟩ | ⟨_, rfl⟩⟩ | ⟨_, _, rfl⟩
    | ⟨rfl, _, ⟨_, rfl⟩ | ⟨_, rfl⟩⟩ | ⟨rfl, ⟨_, rfl⟩ | ⟨_, rfl⟩⟩ | ⟨rfl, rfl⟩ | ⟨_, _, rfl⟩
  case inl.inr => simp [hstop] -- `SUSP` over a request
  case inr.inr.inl => -- `WRDY`, which never clears `SMP_TO`
    have hset : (waitReady c s).smpTo = false → s.smpTo = true → Instr.wrdy c = .conv := fun hf ht =>
      absurd ((waitReady_smpTo ht).symm.trans hf) (by decide)
    simpa using hset
  all_goals simp +contextual

/-! ### The entry of another channel -/

/-- The state with another entry for channel `d`. -/
def withEntry (d : Chan) (e : Entry) (s : State) : State := { s with bank := s.bank.set d e }

section
variable {d : Chan} {e : Entry} {s t : State}

/-- `WRDY c` waits for the data line, whatever the entries hold. -/
theorem waitReady_withEntry (c : Chan) (d : Chan) (e : Entry) (s : State) :
    waitReady c (withEntry d e s) = withEntry d e (waitReady c s) := by
  rcases wait_cases c (s.amps.get c) (pollBound c s) with ⟨j, hj, hh, hl⟩ | hh
  · rw [waitReady_ready hj hh hl, waitReady_ready (s := withEntry d e s) hj hh hl]
    rfl
  · rw [waitReady_timeout hh, waitReady_timeout (s := withEntry d e s) hh]
    rfl

/-- `CsWrite` on another channel and the other entry of `d` do not meet. -/
theorem csWrite_withEntry {c : Chan} (hc : c ≠ d) (p : Word24) (lt : Bool) (lv : Word24) (st : Bool) :
    csWrite c p lt lv st (withEntry d e s) = withEntry d e (csWrite c p lt lv st s) := by
  simp only [csWrite, withEntry, PerCh.set_comm s.bank hc]

/-- The form of `INIT` and `AMB`: a next state where the condition holds, else a refusal. -/
theorem ite_next_iff {p : Prop} [Decidable p] {u : State} {r : Refusal} :
    (if p then Host.Outcome.next u else .refused r : Host.Outcome State Fault Refusal) = .next t ↔ p ∧ u = t := by
  by_cases h : p <;> simp [h]

/-- An operation not on channel `d` does the same whatever the entry of `d` holds. -/
theorem exec_withEntry {i : Instr} (hdec : i ≠ .dec d) (hupd : i ≠ .upd d) (hgate : i ≠ .gate d) (hrdl : i ≠ .rdl d)
    (h : exec i s = .next t) : exec i (withEntry d e s) = .next (withEntry d e t) := by
  have hread : ∀ c, c ≠ d → csRead c (withEntry d e s) = csRead c s := fun c hc => PerCh.get_set_ne _ _ hc
  cases i with
  | init =>
    obtain ⟨ha, rfl⟩ := ite_next_iff.1 h
    refine ite_next_iff.2 ⟨ha, ?_⟩
    rw [apply_ite (withEntry d e)]
    rfl
  | amb =>
    obtain ⟨ha, rfl⟩ := ite_next_iff.1 h
    exact ite_next_iff.2 ⟨ha, rfl⟩
  | susp | tick | next =>
    injection h with h
    rw [← h, apply_ite (withEntry d e)]
    rfl
  | wrdy c =>
    injection h with h
    rw [← h, ← waitReady_withEntry]
    rfl
  | shb c =>
    injection h with h
    rw [← h, shiftBit_read]
    exact congrArg _ (shiftBit_read c _)
  | clkl | gpl | conv | stop =>
    injection h with h
    rw [← h]
    rfl
  | dec c =>
    have hc : c ≠ d := fun hcd => hdec (hcd ▸ rfl)
    injection h with h
    simp only [← h, exec, execDec, hread c hc]
    rfl
  | upd c =>
    have hc : c ≠ d := fun hcd => hupd (hcd ▸ rfl)
    injection h with h
    simp only [← h, exec, execUpd, hread c hc, csWrite_withEntry hc]
    rfl
  | gate c =>
    have hc : c ≠ d := fun hcd => hgate (hcd ▸ rfl)
    injection h with h
    simp only [← h, exec, execGate, hread c hc]
    rfl
  | rdl c =>
    have hc : c ≠ d := fun hcd => hrdl (hcd ▸ rfl)
    injection h with h
    simp only [← h, exec, execRdl, hread c hc]
    rfl

end

/-- Settles O40: the entry is written by its `UPD` only, and the run with another entry is the same run. -/
theorem otherEntriesAreNeitherReadNorWritten : Obligations.OtherEntriesAreNeitherReadNorWritten := by
  intro i d e s t hdec hupd hgate hrdl h
  obtain ⟨hentry, _, _⟩ := exec_frame h
  exact ⟨hentry d hupd, exec_withEntry hdec hupd hgate hrdl h⟩

/-! ### The configuration -/

section
variable {s t : State}

/-- What a completed `INIT` found and left (43_scheduler.md R186). -/
theorem init_cases (h : exec .init s = .next t) :
    (s.sched = .idle ∧ s.inited = false ∧ s.cfgErr = false)
      ∧ ((configOk (offered s) = true ∧ t.inited = true) ∨ t.cfg = s.cfg) := by
  have hcases := exec_next_cases h
  simp only [reduceCtorEq, false_and, exists_false, false_or, or_false, true_and] at hcases
  obtain ⟨ha, ⟨hok, rfl⟩ | ⟨_, rfl⟩⟩ := hcases
  · exact ⟨initAllowed_iff.1 ha, .inl ⟨hok, rfl⟩⟩
  · exact ⟨initAllowed_iff.1 ha, .inr rfl⟩

/-- After `INIT` a step keeps the configuration and `INITED`. -/
theorem step_keeps_config (hs : s.inited = true) (h : step s = .next t) : t.cfg = s.cfg ∧ t.inited = true := by
  rcases step_next_cases h with ⟨_, _, i, _, _, _, he⟩ | ⟨_, rfl⟩
  · have hi : i ≠ .init := by
      rintro rfl
      obtain ⟨⟨_, hinit, _⟩, _⟩ := init_cases he
      exact absurd (hs.symm.trans hinit) (by decide)
    obtain ⟨_, hframe, _⟩ := exec_frame he
    obtain ⟨hcfg, hinit, _⟩ := hframe hi
    exact ⟨hcfg, hinit.trans hs⟩
  · exact ⟨rfl, hs⟩

theorem step_fusionPresent (h : step s = .next t) : t.fusionPresent = s.fusionPresent := by
  rcases step_next_cases h with ⟨_, _, _, _, _, _, he⟩ | ⟨_, rfl⟩
  · obtain ⟨_, _, hfusion⟩ := exec_frame he
    exact hfusion
  · rfl

end

/-- Settles O41: one operation by its inversion, and a run by what each step keeps. -/
theorem configurationIsFrozenAfterInit : Obligations.ConfigurationIsFrozenAfterInit := by
  refine ⟨fun i s t h hne => ?_, fun n s t hs h => ?_, fun n s t h => ?_⟩
  · obtain ⟨_, hframe, _⟩ := exec_frame h
    obtain rfl : i = .init := by
      by_contra hi
      exact hne (hframe hi).1
    obtain ⟨⟨hidle, hinit, herr⟩, hload⟩ := init_cases h
    obtain ⟨hok, ht⟩ := hload.resolve_right hne
    exact ⟨rfl, hidle, hinit, herr, hok, ht⟩
  · refine run_keeps (P := fun u => u.cfg = s.cfg ∧ u.inited = true) (fun u v hu huv => ?_) ⟨rfl, hs⟩ h
    obtain ⟨hcfg, hinit⟩ := hu
    obtain ⟨hcfg', hinit'⟩ := step_keeps_config hinit huv
    exact ⟨hcfg'.trans hcfg, hinit'⟩
  · exact run_keeps (P := fun u => u.fusionPresent = s.fusionPresent)
      (fun u v hu huv => (step_fusionPresent huv).trans hu) rfl h

/-! ### The reset state -/

/-- Settles O33: the reset state is a closed record, read channel by channel. -/
theorem resetValuesAreAsStated : Obligations.ResetValuesAreAsStated := by
  unfold Obligations.ResetValuesAreAsStated
  rw [Chan.forall_iff]
  decide

end Machine

end Sys2Proof
end

section
/-! What each operation appends to the record, and so which lines it reaches (20_memory.md R64, R65). -/

namespace Sys2Proof.Machine

/-- The events operation `i` may append to the record on its way from `s` to `t`: one constructor for each way an
operation can record. -/
inductive Appends (s t : State) : Instr → List Event → Prop where
  | nothing (i : Instr) : Appends s t i []
  | clockLow : Appends s t .clkl [.lineWrite t.cfg.clkLine false]
  | ready (c : Chan) (j : Nat) : Appends s t (.wrdy c)
      (List.replicate j (.lineRead (s.cfg.dataLine.get c) true) ++ [.lineRead (s.cfg.dataLine.get c) false])
  | timeout (c : Chan) (j : Nat) : Appends s t (.wrdy c)
      (List.replicate j (.lineRead (s.cfg.dataLine.get c) true) ++ [.raised (.deviceNotReady c)])
  | bit (c : Chan) (b : Level) : Appends s t (.shb c)
      [.lineWrite t.cfg.clkLine true, .lineWrite t.cfg.clkLine false, .lineRead (s.cfg.dataLine.get c) b]
  | extraPulse : Appends s t .gpl [.lineWrite t.cfg.clkLine true, .lineWrite t.cfg.clkLine false]
  | gateSet (c : Chan) (v : Level) : Appends s t (.gate c) [.setGate c v]
  | answered (c : Chan) (r : Status) : Appends s t (.rdl c) [.answer c r]
  | configLoaded : Appends s t .init [.lineWrite t.cfg.clkLine false, .initResult true]
  | configRejected : Appends s t .init [.raised .configurationError, .initResult false]

section
variable {i : Instr} {s t : State}

/-- An operation that leaves the record as it was appends nothing. -/
theorem exists_appends_of_trace_eq (h : t.trace = s.trace) : ∃ es, t.trace = s.trace ++ es ∧ Appends s t i es :=
  ⟨[], h.trans (List.append_nil _).symm, .nothing i⟩

/-- `WRDY c` records its polls, and the condition when the bound is reached (40_adc_acquire.md R124). -/
theorem waitReady_appends (c : Chan) (s : State) :
    ∃ es, (waitReady c s).trace = s.trace ++ es ∧ Appends s (waitReady c s) (.wrdy c) es := by
  rcases waitReady_cases c s with ⟨j, _, e⟩ | e
  · exact ⟨_, (congrArg State.trace e).trans (List.append_assoc ..), .ready c j⟩
  · exact ⟨_, (congrArg State.trace e).trans (List.append_assoc ..), .timeout c (pollBound c s)⟩

/-- An operation only appends to the record, and only what `Appends` lists for it. -/
theorem exec_appends (h : exec i s = .next t) : ∃ es, t.trace = s.trace ++ es ∧ Appends s t i es := by
  cases i with
  | clkl =>
    injection h with h
    exact h ▸ ⟨_, rfl, .clockLow⟩
  | wrdy c =>
    injection h with h
    exact h ▸ waitReady_appends c s
  | shb c =>
    injection h with h
    rw [shiftBit_read] at h
    exact h ▸ ⟨_, rfl, .bit c _⟩
  | gpl =>
    injection h with h
    rw [countExtra_pulse] at h
    exact h ▸ ⟨_, rfl, .extraPulse⟩
  | gate c =>
    injection h with h
    exact h ▸ ⟨_, rfl, .gateSet c _⟩
  | rdl c =>
    injection h with h
    exact h ▸ ⟨_, rfl, .answered c _⟩
  | init =>
    obtain ⟨_, h⟩ := ite_next_iff.1 h
    split at h
    · rw [loadConfig_eq] at h
      exact h ▸ ⟨_, rfl, .configLoaded⟩
    · exact h ▸ ⟨_, List.append_assoc .., .configRejected⟩
  | amb =>
    obtain ⟨_, h⟩ := ite_next_iff.1 h
    exact h ▸ exists_appends_of_trace_eq rfl
  | susp | next | tick =>
    injection h with h
    refine exists_appends_of_trace_eq ?_
    rw [← h]
    split <;> rfl
  | conv | dec | upd | stop =>
    injection h with h
    exact h ▸ exists_appends_of_trace_eq rfl

end

/-- Settles O43: `Appends` lists the events of each operation, and each is on the operation's own line. -/
theorem eachOperationReachesItsLinesOnly : Obligations.EachOperationReachesItsLinesOnly := by
  intro i s t h
  obtain ⟨es, ht, ha⟩ := exec_appends h
  refine ⟨es, ht, ?_⟩
  cases ha with
  | nothing => simp
  | clockLow | extraPulse => simp +contextual -- writes of the clock line
  | ready | timeout => simp +contextual -- reads of the data line of `c`
  | bit => simp +contextual -- both
  | gateSet | answered | configLoaded | configRejected => simp

end Sys2Proof.Machine
end

section
/-! The op word both ways: where its fields are (30_encoding.md R103), the form of the decoder's answer for each
operation code (R104, R105), and from that form what it decodes and what it rejects. Then the packed formats of R98 to
R101, field by field. -/

namespace Sys2Proof

/-- A bit read alone is the field of width 1 at its place. -/
theorem ofBool_getLsbD {n : Nat} (w : BitVec n) (k : Nat) : BitVec.ofBool (w.getLsbD k) = w.extractLsb' k 1 := by
  ext i hi
  simp [show i = 0 by omega]

/-- A bit above the low part of an append is a bit of the high part. -/
theorem getLsbD_append_of_le {m n k : Nat} {x : BitVec n} {y : BitVec m} (h : m ≤ k) :
    (x ++ y).getLsbD k = x.getLsbD (k - m) := by
  rw [BitVec.getLsbD_append, if_neg (Nat.not_lt.2 h)]

/-! ### The fields of an op word -/

section
variable (w : OpWord) (opc : BitVec 4) (chf : BitVec 3)

@[simp] theorem opcOf_opWordOf : opcOf (opWordOf opc chf) = opc := by
  unfold opcOf opWordOf
  rw [BitVec.extractLsb'_append_eq_of_le (by omega), BitVec.extractLsb'_append_eq_left]

@[simp] theorem reservedBitOf_opWordOf : reservedBitOf (opWordOf opc chf) = false := by
  unfold reservedBitOf opWordOf
  rw [BitVec.getLsbD_append, if_neg (by omega), BitVec.getLsbD_append, if_pos (by omega)]
  rfl

@[simp] theorem chfOf_opWordOf : chfOf (opWordOf opc chf) = chf :=
  BitVec.extractLsb'_append_eq_right

/-- A word with bit 3 clear is put together again from its fields. -/
theorem opWordOf_fields {w : OpWord} (h : reservedBitOf w = false) : opWordOf (opcOf w) (chfOf w) = w := by
  have hbit : (0#1 : BitVec 1) = w.extractLsb' 3 1 := by
    rw [← ofBool_getLsbD, show w.getLsbD 3 = false from h]
    rfl
  unfold opWordOf opcOf chfOf
  rw [hbit, BitVec.extractLsb'_append_extractLsb'_eq_extractLsb' (by rfl),
    BitVec.extractLsb'_append_extractLsb'_eq_extractLsb' (by rfl)]
  exact BitVec.extractLsb'_eq_self

theorem opcOf_toNat : (opcOf w).toNat = w.toNat / 16 := by
  have hlt := w.isLt
  simp only [opcOf, BitVec.extractLsb'_toNat, Nat.shiftRight_eq_div_pow]
  omega

theorem reservedBitOf_iff : reservedBitOf w = true ↔ w.toNat / 8 % 2 = 1 := by
  simp [reservedBitOf, BitVec.getLsbD, Nat.testBit_eq_decide_div_mod_eq]

theorem chfOf_toNat : (chfOf w).toNat = w.toNat % 8 := by
  simp [chfOf]

end

/-! ### The channel field -/

/-- The values 1 to 4 of `CHF` name the channels, no other value names one (30_encoding.md R97). -/
theorem channelOf_ok_iff {chf : BitVec 3} {c : Chan} : channelOf chf = .ok c ↔ chf = c.code := by
  refine ⟨fun h => ?_, fun h => h ▸ channelOf_code c⟩
  unfold channelOf at h
  split at h <;> cases h <;> exact BitVec.eq_of_toNat_eq ‹_›

theorem channelOf_error_iff {chf : BitVec 3} : (∃ r, channelOf chf = .error r) ↔ chf.toNat = 0 ∨ 5 ≤ chf.toNat := by
  unfold channelOf
  split
  case h_6 =>
    simp only [imp_false] at *
    simp
    omega
  all_goals simp [*]

theorem plainOp_ok_iff {i j : Instr} {chf : BitVec 3} : plainOp i chf = .ok j ↔ chf = 0 ∧ i = j := by
  unfold plainOp
  split <;> simp_all

theorem plainOp_error_iff {i : Instr} {chf : BitVec 3} : (∃ r, plainOp i chf = .error r) ↔ chf.toNat ≠ 0 := by
  unfold plainOp
  split <;> simp_all [BitVec.toNat_eq]

theorem channelOp_ok_iff {k : Chan → Instr} {j : Instr} {chf : BitVec 3} :
    channelOp k chf = .ok j ↔ ∃ c : Chan, chf = c.code ∧ k c = j := by
  simp only [← channelOf_ok_iff]
  unfold channelOp
  split <;> simp [*]

theorem channelOp_error_iff {k : Chan → Instr} {chf : BitVec 3} :
    (∃ r, channelOp k chf = .error r) ↔ chf.toNat = 0 ∨ 5 ≤ chf.toNat := by
  rw [← channelOf_error_iff]
  unfold channelOp
  split <;> simp [*]

/-! ### The rows of the opcode map -/

/-- The operation codes of the channel operations (30_encoding.md R104). -/
def channelOpcodes : List Nat := [2, 3, 6, 7, 8, 10]

/-- The operation codes of the operations without a channel (30_encoding.md R104). -/
def plainOpcodes : List Nat := [0, 1, 4, 5, 9, 11, 12, 13, 14]

theorem plainOpcodes_only : ∀ n ∈ plainOpcodes, n ≠ 15 ∧ n ∉ channelOpcodes := by decide

theorem channelOpcodes_only : ∀ n ∈ channelOpcodes, n ≠ 15 ∧ n ≠ 14 ∧ n ∉ plainOpcodes := by decide

/-- The four forms of a row of the opcode map (30_encoding.md R104, R105): how the decoder answers on `CHF` for one
operation code. -/
inductive OpcodeRow (fusion : Bool) (opc : BitVec 4) : (BitVec 3 → Except Reject Instr) → Prop where
  /-- An operation without a channel; that of code 14 is in the block with fusion only. -/
  | plain (i : Instr) (mem : plainOpcodes.elem opc.toNat) (word : encode i = opWordOf opc 0)
      (wf : WellFormed fusion i = true) (available : opc.toNat = 14 → fusion = true) : OpcodeRow fusion opc (plainOp i)
  /-- A channel operation. -/
  | channel (k : Chan → Instr) (mem : channelOpcodes.elem opc.toNat) (word : ∀ c, encode (k c) = opWordOf opc c.code)
      (wf : ∀ c, WellFormed fusion (k c) = true) : OpcodeRow fusion opc (channelOp k)
  /-- `AMB` in a block without fusion. -/
  | absent (opc_eq : opc.toNat = 14) (off : fusion = false) : OpcodeRow fusion opc fun _ => .error .fusionAbsent
  /-- The code that is left free. -/
  | reserved (opc_eq : opc.toNat = 15) : OpcodeRow fusion opc fun _ => .error .reservedOpcode

theorem decode_of_reservedBit (fusion : Bool) {w : OpWord} (h : reservedBitOf w = true) :
    decode fusion w = .error .reservedBitSet :=
  if_pos h

/-- A word with bit 3 clear is decoded by the row of its operation code. -/
theorem decode_row (fusion : Bool) {w : OpWord} (h : reservedBitOf w = false) :
    ∃ row, OpcodeRow fusion (opcOf w) row ∧ decode fusion w = row (chfOf w) := by
  unfold decode
  rw [h]
  obtain ⟨opc⟩ := opcOf w
  match opc with
  | ⟨0, _⟩ => exact ⟨_, .plain .susp rfl rfl rfl nofun, rfl⟩
  | ⟨1, _⟩ => exact ⟨_, .plain .clkl rfl rfl rfl nofun, rfl⟩
  | ⟨2, _⟩ => exact ⟨_, .channel .wrdy rfl (fun _ => rfl) (fun _ => rfl), rfl⟩
  | ⟨3, _⟩ => exact ⟨_, .channel .shb rfl (fun _ => rfl) (fun _ => rfl), rfl⟩
  | ⟨4, _⟩ => exact ⟨_, .plain .gpl rfl rfl rfl nofun, rfl⟩
  | ⟨5, _⟩ => exact ⟨_, .plain .conv rfl rfl rfl nofun, rfl⟩
  | ⟨6, _⟩ => exact ⟨_, .channel .dec rfl (fun _ => rfl) (fun _ => rfl), rfl⟩
  | ⟨7, _⟩ => exact ⟨_, .channel .upd rfl (fun _ => rfl) (fun _ => rfl), rfl⟩
  | ⟨8, _⟩ => exact ⟨_, .channel .gate rfl (fun _ => rfl) (fun _ => rfl), rfl⟩
  | ⟨9, _⟩ => exact ⟨_, .plain .next rfl rfl rfl nofun, rfl⟩
  | ⟨10, _⟩ => exact ⟨_, .channel .rdl rfl (fun _ => rfl) (fun _ => rfl), rfl⟩
  | ⟨11, _⟩ => exact ⟨_, .plain .init rfl rfl rfl nofun, rfl⟩
  | ⟨12, _⟩ => exact ⟨_, .plain .tick rfl rfl rfl nofun, rfl⟩
  | ⟨13, _⟩ => exact ⟨_, .plain .stop rfl rfl rfl nofun, rfl⟩
  | ⟨14, _⟩ =>
    cases fusion with
    | true => exact ⟨_, .plain .amb rfl rfl rfl fun _ => rfl, rfl⟩
    | false => exact ⟨_, .absent rfl rfl, rfl⟩
  | ⟨15, _⟩ => exact ⟨_, .reserved rfl, rfl⟩
  | ⟨n + 16, hn⟩ => omega

/-! ### What the decoder answers -/

/-- An operation decoded is one that exists in the block, from its own op word. -/
theorem encode_of_decode {fusion : Bool} {w : OpWord} {i : Instr} (h : decode fusion w = .ok i) :
    encode i = w ∧ WellFormed fusion i = true := by
  have hbit : reservedBitOf w = false := by
    refine Bool.eq_false_iff.2 fun hb => ?_
    simp [decode_of_reservedBit _ hb] at h
  obtain ⟨row, hrow, he⟩ := decode_row fusion hbit
  rw [he] at h
  rw [← opWordOf_fields hbit]
  cases hrow with
  | plain j _ hword hwf =>
    obtain ⟨hchf, rfl⟩ := plainOp_ok_iff.1 h
    exact ⟨hchf ▸ hword, hwf⟩
  | channel k _ hword hwf =>
    obtain ⟨c, hchf, rfl⟩ := channelOp_ok_iff.1 h
    exact ⟨hchf ▸ hword c, hwf c⟩
  | absent | reserved => cases h

/-- The op word of an operation that exists in the block decodes to it. -/
theorem decode_encode {fusion : Bool} {i : Instr} (h : WellFormed fusion i = true) :
    decode fusion (encode i) = .ok i := by
  cases i with
  | wrdy c | shb c | dec c | upd c | gate c | rdl c => simp [decode, encode, channelOp]
  | amb =>
    obtain rfl : fusion = true := h
    rfl
  | susp | clkl | gpl | conv | next | init | tick | stop => rfl

/-- The decoder answers an operation on its op word, when it exists in the block, and on no other word. -/
theorem decode_ok_iff {fusion : Bool} {w : OpWord} {i : Instr} :
    decode fusion w = .ok i ↔ encode i = w ∧ WellFormed fusion i = true :=
  ⟨encode_of_decode, fun ⟨hw, h⟩ => hw ▸ decode_encode h⟩

/-- The illegal op words of 30_encoding.md R105. -/
theorem decode_error_iff {fusion : Bool} {w : OpWord} :
    (∃ r, decode fusion w = .error r) ↔
      (w.toNat / 16 = 15
        ∨ w.toNat / 8 % 2 = 1
        ∨ (w.toNat / 16 ∈ channelOpcodes ∧ 5 ≤ w.toNat % 8)
        ∨ (w.toNat / 16 ∈ channelOpcodes ∧ w.toNat % 8 = 0)
        ∨ (w.toNat / 16 ∈ plainOpcodes ∧ w.toNat % 8 ≠ 0)
        ∨ (w.toNat / 16 = 14 ∧ fusion = false)) := by
  rw [← opcOf_toNat, ← chfOf_toNat, ← reservedBitOf_iff]
  cases hbit : reservedBitOf w with
  | true => simp [decode_of_reservedBit _ hbit]
  | false =>
    obtain ⟨row, hrow, he⟩ := decode_row fusion hbit
    rw [he]
    cases hrow with
    | plain _ helem _ _ hfusion =>
      have hmem := List.elem_iff.1 helem
      obtain ⟨h15, hchannel⟩ := plainOpcodes_only _ hmem
      have habsent : ¬((opcOf w).toNat = 14 ∧ fusion = false) := fun h => by simp [hfusion h.1] at h
      simp [plainOp_error_iff, hmem, h15, hchannel, habsent]
    | channel _ helem =>
      have hmem := List.elem_iff.1 helem
      obtain ⟨h15, h14, hplain⟩ := channelOpcodes_only _ hmem
      simp [channelOp_error_iff, hmem, h15, h14, hplain, or_comm]
    | absent hopc hoff => simp [hopc, hoff]
    | reserved hopc => simp [hopc]

/-! ### The statements about op words -/

/-- Settles O4, by induction on the list: the head by the round trip of one op word. -/
theorem traceDecodesToItself : Obligations.TraceDecodesToItself := by
  intro fusion is h
  induction is with
  | nil => rfl
  | cons i is ih =>
    obtain ⟨hi, his⟩ := List.forall_mem_cons.1 h
    have htail : decodeTrace fusion (is.map encode) = .ok is := ih his
    simp [encodeTrace, decodeTrace, decode_encode hi, htail]

/-- Settles O3: the inversion of the decoder. -/
theorem decodedWordEncodesBack : Obligations.DecodedWordEncodesBack :=
  fun _ _ _ => encode_of_decode

/-- Settles O1: each op word is the encoding of its operation; the rejected ones are two of the grounds of R105. -/
theorem opcodeMapIsAsListed : Obligations.OpcodeMapIsAsListed := by
  refine ⟨fun f => ?plain, fun f p hp => ?channel, ⟨decode_encode (i := .amb) rfl, .fusionAbsent, rfl⟩,
    fun f w hw => decode_error_iff.2 (.inl hw), by decide, fun c => ?agents, fun _ => rfl, rfl, rfl, rfl, rfl⟩
  case plain => and_intros <;> exact decode_ok_iff.2 ⟨rfl, rfl⟩
  case channel =>
    simp only [List.mem_cons, List.not_mem_nil, or_false] at hp
    rcases hp with rfl | rfl | rfl | rfl <;> and_intros <;> exact decode_ok_iff.2 ⟨rfl, rfl⟩
  case agents => cases c <;> decide

namespace Machine

/-- A step whose move is an illegal op word is refused with the word and the decoder's ground. -/
theorem step_of_illegal_word {s : State} {w : OpWord} {rest : List Move} {r : Reject}
    (ha : s.agenda = .outside w :: rest) (hd : decode s.fusionPresent w = .error r) :
    step s = .refused (.illegalOpWord w r) := by
  simp [step, nextMove, ha, wordOf, perform, hd]

/-- Settles O2: the grounds by the rows of the opcode map, the refusal by the step on an outside word. -/
theorem illegalOpWordsAreRefused : Obligations.IllegalOpWordsAreRefused :=
  ⟨fun _ _ => decode_error_iff, fun _ _ _ _ => step_of_illegal_word⟩

/-! ### The packed formats -/

/-- Two flags packed: the low one. -/
theorem flags_low (a b : Bool) : (BitVec.ofBool a ++ BitVec.ofBool b).getLsbD 0 = b := by
  cases a <;> cases b <;> rfl

/-- Two flags packed: the high one. -/
theorem flags_high (a b : Bool) : (BitVec.ofBool a ++ BitVec.ofBool b).getLsbD 1 = a := by
  cases a <;> cases b <;> rfl

theorem packEntry_prev (e : Entry) : (packEntry e).extractLsb' 0 24 = e.prev :=
  BitVec.extractLsb'_append_eq_right

theorem packEntry_lastVal (e : Entry) : (packEntry e).extractLsb' 24 24 = e.lastVal := by
  unfold packEntry
  rw [BitVec.extractLsb'_append_eq_of_le (by omega), BitVec.extractLsb'_append_eq_right]

theorem packEntry_lastTo (e : Entry) : (packEntry e).getLsbD 48 = e.lastTo := by
  rw [packEntry, getLsbD_append_of_le (by omega), getLsbD_append_of_le (by omega)]
  exact flags_low ..

theorem packEntry_step (e : Entry) : (packEntry e).getLsbD 49 = e.step := by
  rw [packEntry, getLsbD_append_of_le (by omega), getLsbD_append_of_le (by omega)]
  exact flags_high ..

@[simp] theorem unpackEntry_packEntry (e : Entry) : unpackEntry (packEntry e) = e := by
  rw [unpackEntry, packEntry_prev, packEntry_lastVal, packEntry_lastTo, packEntry_step]

/-- The four fields of a CHSTATE word cover it. -/
@[simp] theorem packEntry_unpackEntry (w : BitVec 50) : packEntry (unpackEntry w) = w := by
  simp only [packEntry, unpackEntry, ofBool_getLsbD]
  rw [BitVec.extractLsb'_append_extractLsb'_eq_extractLsb' (by rfl),
    BitVec.extractLsb'_append_extractLsb'_eq_extractLsb' (by rfl),
    BitVec.extractLsb'_append_extractLsb'_eq_extractLsb' (by rfl)]
  exact BitVec.extractLsb'_eq_self

theorem packStatus_fields (r : Status) :
    (packStatus r).extractLsb' 0 32 = r.weight ∧ (packStatus r).getLsbD 32 = r.stepAsserted
      ∧ (packStatus r).getLsbD 33 = r.isTimeout := by
  refine ⟨BitVec.extractLsb'_append_eq_right, ?_, ?_⟩ <;> rw [packStatus, getLsbD_append_of_le (by omega)]
  · exact flags_low ..
  · exact flags_high ..

theorem packRaw_fields (b : Bool) (v : Word24) :
    (packRaw b v).extractLsb' 0 24 = v ∧ (packRaw b v).getLsbD 24 = b := by
  refine ⟨BitVec.extractLsb'_append_eq_right, ?_⟩
  rw [packRaw, getLsbD_append_of_le (Nat.le_refl _)]
  cases b <;> rfl

theorem sext32_toInt (v : Word24) : (sext32 v).toInt = v.toInt :=
  BitVec.toInt_signExtend_of_le (by omega)

theorem sext32_low (v : Word24) : (sext32 v).extractLsb' 0 24 = v := by
  ext k hk
  have hk' : k < 32 := by omega
  rw [BitVec.getElem_extractLsb', sext32, BitVec.getLsbD_signExtend]
  simp [hk, hk']

theorem sext32_high {v : Word24} {k : Nat} (hlow : 24 ≤ k) (hhigh : k < 32) :
    (sext32 v).getLsbD k = v.getLsbD 23 := by
  rw [sext32, BitVec.getLsbD_signExtend, if_neg (Nat.not_lt.2 hlow), BitVec.msb_eq_getLsbD_last]
  simp [hhigh]

/-- Settles O25: field by field, and the two directions of CHSTATE. -/
theorem packedFormatsHoldTheirFields : Obligations.PackedFormatsHoldTheirFields :=
  ⟨fun e => ⟨packEntry_prev e, packEntry_lastVal e, packEntry_lastTo e, packEntry_step e, unpackEntry_packEntry e⟩,
    packEntry_unpackEntry, packStatus_fields, packRaw_fields,
    fun v => ⟨sext32_toInt v, sext32_low v, fun _ => sext32_high⟩⟩

end Machine

end Sys2Proof
end

section
/-! The operations of an acquisition one by one, and the laws of the conversion (40_adc_acquire.md R122 to R131). -/

namespace Sys2Proof.Machine

/-! ### The operations -/

theorem exec_shb (c : Chan) (s : State) : exec (.shb c) s = .next { s with
    sck := false
    acc := shiftIn s.acc ((s.amps.get c).level c)
    bitCnt := s.bitCnt + 1
    gCnt := if s.bitCnt + 1 = 24 then 0 else s.gCnt
    phase := if s.bitCnt + 1 = 24 then .gpl else .shb
    amps := s.amps.set c (s.amps.get c).advance
    trace := s.trace ++ [.lineWrite s.cfg.clkLine true, .lineWrite s.cfg.clkLine false,
      .lineRead (s.cfg.dataLine.get c) ((s.amps.get c).level c)] } :=
  congrArg _ (shiftBit_read c s)

theorem exec_gpl {c : Chan} {s : State} (hc : s.ch = c.code) : exec .gpl s = .next { s with
    sck := false
    gCnt := s.gCnt + 1
    phase := if s.gCnt + 1 = s.cfg.extra.get c then .conv else .gpl
    trace := s.trace ++ [.lineWrite s.cfg.clkLine true, .lineWrite s.cfg.clkLine false] } :=
  extraAt_of_channel hc ▸ congrArg _ (countExtra_pulse s)

theorem exec_clkl (s : State) : exec .clkl s = .next { s with
    sck := false
    phase := .wrdy
    trace := s.trace ++ [.lineWrite s.cfg.clkLine false] } := by
  simp [exec, execClkl, lineWrite]

/-- Settles O8. -/
theorem clklDrivesTheClockLow : Obligations.ClklDrivesTheClockLow := ⟨by decide, exec_clkl⟩

/-- A bound that `INIT` accepts is the number of polls permitted. -/
theorem pollBound_eq {c : Chan} {s : State} (h : 1 ≤ s.cfg.maxPolls.get c) : pollBound c s = s.cfg.maxPolls.get c :=
  Nat.max_eq_right h

/-- What `WRDY c` leaves when every poll that the configuration permits reads high. -/
theorem waitReady_timeout_legal {c : Chan} {s : State} (hm : 1 ≤ s.cfg.maxPolls.get c)
    (hh : ∀ i, i < s.cfg.maxPolls.get c → (s.amps.get c).nth c i = true) : waitReady c s = { s with
      pollCnt := s.cfg.maxPolls.get c
      rdy := false
      smpTo := true
      phase := .dec
      amps := s.amps.set c ((s.amps.get c).after (s.cfg.maxPolls.get c))
      trace := s.trace ++ List.replicate (s.cfg.maxPolls.get c) (.lineRead (s.cfg.dataLine.get c) true)
        ++ [.raised (.deviceNotReady c)] } := by
  have h := waitReady_timeout (c := c) (s := s) (by rwa [pollBound_eq hm])
  rwa [pollBound_eq hm] at h

/-- Settles O9: the two laws of `waitReady`, under a bound that `INIT` accepts. -/
theorem wrdyWaitsForALowLineUpToTheBound : Obligations.WrdyWaitsForALowLineUpToTheBound := by
  refine fun c s => ⟨by cases c <;> decide, fun hm => ⟨fun j hj hhigh hlow => ?_, fun hhigh => ?_, wait_cases ..⟩⟩
  · exact congrArg _ (waitReady_ready (pollBound_eq hm ▸ hj) hhigh hlow)
  · exact congrArg _ (waitReady_timeout_legal hm hhigh)

/-- Settles O11. -/
theorem shbShiftsOneBitIn : Obligations.ShbShiftsOneBitIn :=
  fun c s => ⟨by cases c <;> decide, fun _ _ _ => exec_shb c s⟩

/-- Settles O13. -/
theorem gplIssuesOnePulse : Obligations.GplIssuesOnePulse := ⟨by decide, fun _ _ hc _ _ _ => exec_gpl hc⟩

/-! ### The conversion -/

/-- The two's complement value of a word (30_encoding.md R94). -/
theorem word24_toInt (u : Word24) :
    u.toInt = if u.toNat < 0x800000 then (u.toNat : Int) else (u.toNat : Int) - 0x1000000 := by
  rw [BitVec.toInt_eq_toNat_cond]
  split <;> split <;> omega

/-- The converted word, read two's complement, is the unsigned word less the centre (40_adc_acquire.md R131). -/
theorem conv24_toInt (u : Word24) : (conv24 u).toInt = (u.toNat : Int) - 8388608 := by
  rw [word24_toInt]
  rcases Nat.lt_or_ge u.toNat 8388608 with h | h
  · have := conv24_toNat_low h
    rw [if_neg (by omega)]
    omega
  · have := conv24_toNat_high h
    rw [if_pos (by omega)]
    omega

/-- Settles O14: the value is the model's conversion of `ACC`, read two's complement. -/
theorem convConvertsTheWord : Obligations.ConvConvertsTheWord :=
  ⟨by decide, fun _ s _ _ _ => ⟨conv24 s.acc, word24_toInt (conv24 s.acc), rfl⟩⟩

/-- The word that converts to a sample value. -/
theorem exists_conv24_toInt_eq {n : Int} (hlow : -8388608 ≤ n) (hhigh : n ≤ 8388607) :
    ∃ u : Word24, (conv24 u).toInt = n := by
  refine ⟨BitVec.ofNat 24 (n + 8388608).toNat, ?_⟩
  rw [conv24_toInt, BitVec.toNat_ofNat, Nat.mod_eq_of_lt (by omega)]
  omega

theorem conv24_toInt_injective {u v : Word24} (h : (conv24 u).toInt = (conv24 v).toInt) : u = v := by
  rw [conv24_toInt, conv24_toInt] at h
  exact BitVec.eq_of_toNat_eq (by omega)

/-- Settles O16: all but the two halves of the pattern follow from the value `u - 8388608`. -/
theorem conversionIsExactAndBijective : Obligations.ConversionIsExactAndBijective := by
  refine ⟨conv24_involutive, fun u hu => ?_, fun u => conv24_toNat_low, conv24_toInt, fun u => ?_, fun u v huv => ?_,
    fun n hlow hhigh => ?_, fun u => ?_⟩
  · have := conv24_toNat_high hu -- the upper half
    exact ⟨this, by omega⟩
  · rw [conv24_toInt] -- the range
    omega
  · rw [conv24_toInt, conv24_toInt] -- monotony
    omega
  · obtain ⟨u, rfl⟩ := exists_conv24_toInt_eq hlow hhigh -- the bijection
    exact ⟨u, rfl, fun v hv => conv24_toInt_injective hv⟩
  · rw [conv24_toInt, word24_toInt] -- the distance from sign extension
    split <;> omega

end Sys2Proof.Machine
end

section
/-! The frame: the word its 24 `SHB` assemble (30_encoding.md R93), and the runs of its bits and of its extra pulses
(40_adc_acquire.md R127, R129). -/

namespace Sys2Proof.Machine

/-! ### The word -/

/-- `ACC` after the next `n` bits of channel `c`'s data line are shifted into `u`. -/
def shiftedIn (c : Chan) (a : Amp) (n : Nat) (u : Word24) : Word24 :=
  (List.range n).foldl (fun v k => shiftIn v (a.nth c k)) u

section
variable (c : Chan) (a : Amp) (n : Nat) (u : Word24)

/-- The last bit apart. -/
theorem shiftedIn_succ : shiftedIn c a (n + 1) u = shiftIn (shiftedIn c a n u) (a.nth c n) := by
  simp [shiftedIn, List.range_succ]

/-- The first bit apart. -/
theorem shiftedIn_cons : shiftedIn c a (n + 1) u = shiftedIn c a.advance n (shiftIn u (a.level c)) := by
  simp [shiftedIn, List.range_succ_eq_map, List.foldl_map, Amp.nth_zero, Amp.advance_nth]

/-- Of the bits shifted in, the last is bit 0 and each earlier one is one place higher. -/
theorem shiftedIn_getLsbD {i : Nat} (hi : i < 24) (hn : i < n) :
    (shiftedIn c a n u).getLsbD i = a.nth c (n - 1 - i) := by
  induction n generalizing i with
  | zero => omega
  | succ n ih =>
    rw [shiftedIn_succ, shiftIn_getLsbD _ _ _ hi]
    cases i with
    | zero => rfl
    | succ i =>
      rw [if_neg (Nat.succ_ne_zero i), Nat.add_sub_cancel, ih (by omega) (by omega)]
      congr 1
      omega

/-- After 24 bits nothing is left of what `ACC` held before. -/
theorem shiftedIn_eq_word : shiftedIn c a 24 u = a.word c :=
  BitVec.eq_of_getLsbD_eq fun _ hi => by
    rw [shiftedIn_getLsbD c a 24 u hi hi]
    exact (shiftedIn_getLsbD c a 24 0 hi hi).symm

/-- The first bit read is bit 23 of the word. -/
theorem word_getLsbD {k : Nat} (hk : k < 24) : (a.word c).getLsbD (23 - k) = a.nth c k := by
  rw [← shiftedIn_eq_word c a 0, shiftedIn_getLsbD _ _ _ _ (by omega) (by omega)]
  congr 1
  omega

/-- The number that the first `n` bits read are, first bit highest. -/
def bitSum : Nat := ((List.range n).map (fun k => (a.nth c k).toNat * 2 ^ (n - 1 - k))).sum

/-- One bit more doubles the number and adds the bit. -/
theorem bitSum_succ : bitSum c a (n + 1) = 2 * bitSum c a n + (a.nth c n).toNat := by
  have hterm : ∀ k ∈ List.range n,
      (a.nth c k).toNat * 2 ^ (n - k) = 2 * ((a.nth c k).toNat * 2 ^ (n - 1 - k)) := by
    intro k hk
    have hk := List.mem_range.1 hk
    rw [show n - k = n - 1 - k + 1 by omega, Nat.pow_succ]
    ring
  simp only [bitSum, List.sum_range_succ, Nat.add_sub_cancel, Nat.sub_self, Nat.pow_zero, Nat.mul_one]
  rw [List.map_congr_left hterm, List.sum_map_mul_left]

theorem bitSum_lt : bitSum c a n < 2 ^ n := by
  induction n with
  | zero => exact Nat.one_pos
  | succ n ih =>
    have := Bool.toNat_le (a.nth c n)
    rw [bitSum_succ, Nat.pow_succ]
    omega

/-- Shifted into 0, up to 24 bits are the number they write. -/
theorem shiftedIn_toNat (hn : n ≤ 24) : (shiftedIn c a n 0).toNat = bitSum c a n := by
  induction n with
  | zero => rfl
  | succ n ih =>
    have hroom : bitSum c a n < 2 ^ 23 :=
      Nat.lt_of_lt_of_le (bitSum_lt c a n) (Nat.pow_le_pow_right (by decide) (by omega))
    rw [shiftedIn_succ, shiftIn_toNat _ (by rwa [ih (by omega)]), ih (by omega), bitSum_succ]

theorem word_toNat : (a.word c).toNat = bitSum c a 24 := shiftedIn_toNat c a 24 (Nat.le_refl 24)

/-! ### The line events -/

/-- The line events of `n` bits of channel `c` (40_adc_acquire.md R136). -/
def bitEvents (cfg : CfgRegs) : List Event :=
  (List.range n).flatMap fun k =>
    [.lineWrite cfg.clkLine true, .lineWrite cfg.clkLine false, .lineRead (cfg.dataLine.get c) (a.nth c k)]

/-- The first bit apart. -/
theorem bitEvents_cons (cfg : CfgRegs) : bitEvents c a (n + 1) cfg =
    [.lineWrite cfg.clkLine true, .lineWrite cfg.clkLine false, .lineRead (cfg.dataLine.get c) (a.level c)]
      ++ bitEvents c a.advance n cfg := by
  simp [bitEvents, List.range_succ_eq_map, List.flatMap_map, Amp.nth_zero, Amp.advance_nth]

end

/-- The line events of `n` extra pulses (40_adc_acquire.md R136). -/
def pulseEvents (n : Nat) (cfg : CfgRegs) : List Event :=
  (List.replicate n [Event.lineWrite cfg.clkLine true, Event.lineWrite cfg.clkLine false]).flatten

/-- The first pulse apart. -/
theorem pulseEvents_succ (n : Nat) (cfg : CfgRegs) : pulseEvents (n + 1) cfg =
    [.lineWrite cfg.clkLine true, .lineWrite cfg.clkLine false] ++ pulseEvents n cfg := by
  simp [pulseEvents, List.replicate_succ]

/-! ### The runs -/

/-- The worker's next operation, then the rest of the run. -/
theorem run_succ {s t : State} {c : Chan} {p : Phase} (n : Nat) (ha : s.agenda = []) (hp : s.phase = p)
    (hc : s.ch = c.code) (h : exec (opAt p c) s = .next t) : run (n + 1) s = run n t := by
  rw [Nat.add_comm]
  exact run_add n ((run_one ha hc).trans (hp ▸ h))

/-- The last `n + 1` bits of a frame. -/
theorem run_bits {c : Chan} (n : Nat) {s : State} (ha : s.agenda = []) (hp : s.phase = .shb) (hc : s.ch = c.code)
    (hb : s.bitCnt.toNat + (n + 1) = 24) : run (n + 1) s = .next { s with
      sck := false
      phase := .gpl
      acc := shiftedIn c (s.amps.get c) (n + 1) s.acc
      bitCnt := 24
      gCnt := 0
      amps := s.amps.set c ((s.amps.get c).after (n + 1))
      trace := s.trace ++ bitEvents c (s.amps.get c) (n + 1) s.cfg } := by
  induction n generalizing s with
  | zero =>
    have hlast : s.bitCnt + 1 = 24 := by bv_omega
    rw [run_succ 0 ha hp hc (exec_shb c s), if_pos hlast, if_pos hlast, hlast]
    rfl
  | succ n ih =>
    have hmore : s.bitCnt + 1 ≠ 24 := by bv_omega
    rw [run_succ (n + 1) ha hp hc (exec_shb c s), if_neg hmore, if_neg hmore, ih]
    · simp [shiftedIn_cons c _ (n + 1), bitEvents_cons c _ (n + 1), Amp.advance_after]
    exacts [ha, rfl, hc, by bv_omega]

/-- The last `n + 1` extra pulses of a frame. -/
theorem run_pulses {c : Chan} (n : Nat) {s : State} (ha : s.agenda = []) (hp : s.phase = .gpl) (hc : s.ch = c.code)
    (hg : s.gCnt.toNat + (n + 1) = (s.cfg.extra.get c).toNat) : run (n + 1) s = .next { s with
      sck := false
      phase := .conv
      gCnt := s.cfg.extra.get c
      trace := s.trace ++ pulseEvents (n + 1) s.cfg } := by
  induction n generalizing s with
  | zero =>
    have hlast : s.gCnt + 1 = s.cfg.extra.get c := by bv_omega
    rw [run_succ 0 ha hp hc (exec_gpl hc), if_pos hlast, hlast]
    rfl
  | succ n ih =>
    have hmore : s.gCnt + 1 ≠ s.cfg.extra.get c := by bv_omega
    rw [run_succ (n + 1) ha hp hc (exec_gpl hc), if_neg hmore, ih]
    · simp [pulseEvents_succ (n + 1)]
    exacts [ha, rfl, hc, by bv_omega]

/-- Settles O12: the 24 bits are the last 24 of a frame that has read none. -/
theorem frameAssemblesTheWord : Obligations.FrameAssemblesTheWord := by
  intro c s ha hp hc hb
  have hacc := shiftedIn_eq_word c (s.amps.get c) s.acc
  refine ⟨_, run_bits 23 ha hp hc (by rw [hb]; rfl), ?_, ?_, rfl, rfl, rfl, rfl, rfl, rfl⟩
  · exact fun k hk => (congrArg (·.getLsbD (23 - k)) hacc).trans (word_getLsbD c _ hk)
  · exact (congrArg BitVec.toNat hacc).trans (word_toNat c _)

end Sys2Proof.Machine
end

section
/-! Whole acquisitions by the worker alone (40_adc_acquire.md R132 to R136). -/

namespace Sys2Proof.Machine

/-! ### The runs of an acquisition -/

/-- `CLKL` and `WRDY`, then the rest of the run. -/
theorem run_wait {c : Chan} {s : State} (n : Nat) (ha : s.agenda = []) (hp : s.phase = .clkl) (hc : s.ch = c.code) :
    run (n + 2) s = run n (waitReady c { s with
      sck := false
      phase := .wrdy
      trace := s.trace ++ [.lineWrite s.cfg.clkLine false] }) :=
  (run_succ (n + 1) ha hp hc (exec_clkl s)).trans (run_succ n ha rfl hc rfl)

/-- From the first `SHB` of a frame to `DEC`, with `n + 1` extra pulses. -/
theorem run_frame {c : Chan} {s : State} (n : Nat) (ha : s.agenda = []) (hp : s.phase = .shb) (hc : s.ch = c.code)
    (hb : s.bitCnt = 0) (hn : n + 1 = (s.cfg.extra.get c).toNat) : run (24 + (n + 1 + 1)) s = .next { s with
      sck := false
      phase := .dec
      acc := (s.amps.get c).word c
      bitCnt := 24
      gCnt := s.cfg.extra.get c
      smpTo := false
      smpVal := conv24 ((s.amps.get c).word c)
      amps := s.amps.set c ((s.amps.get c).after 24)
      trace := s.trace ++ bitEvents c (s.amps.get c) 24 s.cfg ++ pulseEvents (n + 1) s.cfg } := by
  have hbits := run_bits 23 ha hp hc (by rw [hb]; rfl)
  rw [shiftedIn_eq_word] at hbits
  rw [run_add _ hbits, run_add 1 (run_pulses n ?_ ?_ ?_ ?_)]
  · exact run_succ 0 ha rfl hc rfl
  exacts [ha, rfl, hc, (Nat.zero_add _).trans hn]

/-! ### The record of an acquisition -/

theorem acqTrace_ready {c : Chan} {a : Amp} {m j : Nat} (cfg : CfgRegs) (h : a.firstLow c m = some j) :
    acqTrace c cfg a m = [.lineWrite cfg.clkLine false]
      ++ (List.replicate j (.lineRead (cfg.dataLine.get c) true) ++ [.lineRead (cfg.dataLine.get c) false]
        ++ bitEvents c (a.after (j + 1)) 24 cfg ++ pulseEvents (cfg.extra.get c).toNat cfg) := by
  rw [acqTrace, h, bitEvents, pulseEvents]

theorem acqTrace_timeout {c : Chan} {a : Amp} {m : Nat} (cfg : CfgRegs) (h : a.firstLow c m = none) :
    acqTrace c cfg a m = [.lineWrite cfg.clkLine false] ++ List.replicate m (.lineRead (cfg.dataLine.get c) true) := by
  rw [acqTrace, h]

/-- Settles O45: `CLKL`, `WRDY` and, when a poll reads low, the frame and the conversion. -/
theorem acquisitionGivesTheSampleAndItsTrace : Obligations.AcquisitionGivesTheSampleAndItsTrace := by
  intro c s a m e ha hp hc hamp hm hm1 he he1
  subst hamp hm
  refine ⟨fun j hj => ?_, fun hnone => ?_⟩
  · obtain ⟨hlt, hhigh, hlow⟩ := Amp.firstLow_some hj
    obtain ⟨n, rfl⟩ := Nat.exists_eq_add_of_le' he1
    rw [show 27 + (n + 1) = 24 + (n + 1 + 1) + 2 by omega, run_wait _ ha hp hc, waitReady_ready (j := j),
      run_frame (c := c) n, acqTrace_ready s.cfg hj, ← he]
    · simp [Amp.after_after, Nat.add_assoc]
    exacts [ha, rfl, hc, rfl, he, Nat.lt_of_lt_of_le hlt (Nat.le_max_right ..), hhigh, hlow]
  · rw [run_wait 0 ha hp hc, waitReady_timeout_legal, acqTrace_timeout s.cfg hnone]
    · simp [run]
    exacts [hm1, Amp.firstLow_none hnone]

/-! ### Its numbers of events -/

/-- Among the events `es`: how many are of the lines, how many drive the clock high, how many low. -/
def LineCounts (clk : LineId) (es : List Event) (lines highs lows : Nat) : Prop :=
  (lineEvents es).length = lines
    ∧ es.countP (fun x => decide (x = .lineWrite clk true)) = highs
    ∧ es.countP (fun x => decide (x = .lineWrite clk false)) = lows

theorem LineCounts.append {clk : LineId} {es fs : List Event} {l h w l' h' w' : Nat} (he : LineCounts clk es l h w)
    (hf : LineCounts clk fs l' h' w') : LineCounts clk (es ++ fs) (l + l') (h + h') (w + w') := by
  simp_all [LineCounts]

theorem lineCounts_write_low (clk : LineId) : LineCounts clk [.lineWrite clk false] 1 0 1 := by
  simp [LineCounts, lineEvents]

theorem lineCounts_read (clk l : LineId) (b : Level) : LineCounts clk [.lineRead l b] 1 0 0 := by
  simp [LineCounts, lineEvents]

theorem lineCounts_raised (clk : LineId) (k : Condition) : LineCounts clk [.raised k] 0 0 0 := by
  simp [LineCounts, lineEvents]

theorem lineCounts_reads (clk l : LineId) (b : Level) (n : Nat) :
    LineCounts clk (List.replicate n (.lineRead l b)) n 0 0 := by
  simp [LineCounts, lineEvents]

theorem lineCounts_pulse (clk : LineId) : LineCounts clk [.lineWrite clk true, .lineWrite clk false] 2 1 1 := by
  simp [LineCounts, lineEvents]

theorem lineCounts_pulses (n : Nat) (cfg : CfgRegs) : LineCounts cfg.clkLine (pulseEvents n cfg) (2 * n) n n := by
  induction n with
  | zero => exact ⟨rfl, rfl, rfl⟩
  | succ n ih =>
    rw [pulseEvents_succ, Nat.mul_succ, Nat.add_comm (2 * n), Nat.add_comm n]
    exact (lineCounts_pulse _).append ih

theorem lineCounts_bits (c : Chan) (a : Amp) (n : Nat) (cfg : CfgRegs) :
    LineCounts cfg.clkLine (bitEvents c a n cfg) (3 * n) n n := by
  induction n generalizing a with
  | zero => exact ⟨rfl, rfl, rfl⟩
  | succ n ih =>
    rw [bitEvents_cons, Nat.mul_succ, Nat.add_comm (3 * n), Nat.add_comm n]
    exact ((lineCounts_pulse _).append (lineCounts_read _ _ _)).append (ih _)

/-- Settles O46: the counts of the parts of the trace, added. -/
theorem acquisitionCountsEventsAndPulses : Obligations.AcquisitionCountsEventsAndPulses := by
  intro c s a m e ha hp hc hamp hm hm1 he he1
  obtain ⟨hready, htimeout⟩ := acquisitionGivesTheSampleAndItsTrace c s a m e ha hp hc hamp hm hm1 he he1
  refine ⟨fun j hj => ⟨_, _, hready j hj, rfl, ?_⟩, fun hnone => ⟨_, _, htimeout hnone, List.append_assoc .., ?_⟩⟩
  · have hpolls := (lineCounts_reads s.cfg.clkLine (s.cfg.dataLine.get c) true j).append
      (lineCounts_read _ (s.cfg.dataLine.get c) false)
    have hframe := (hpolls.append (lineCounts_bits c (a.after (j + 1)) 24 s.cfg)).append (lineCounts_pulses e s.cfg)
    obtain ⟨hlines, hhighs, hlows⟩ := (lineCounts_write_low _).append hframe
    rw [acqTrace_ready s.cfg hj, ← he]
    exact ⟨hlines.trans (by omega), hhighs.trans (by omega), hlows.trans (by omega)⟩
  · have hall := (lineCounts_write_low s.cfg.clkLine).append (lineCounts_reads _ (s.cfg.dataLine.get c) true m)
    rw [acqTrace_timeout s.cfg hnone]
    exact hall.append (lineCounts_raised _ _)

end Sys2Proof.Machine
end

section
/-! The decision, and what a Timeout leaves of the channel's entry and gate (41_step_detector.md R151 to R158). -/

namespace Sys2Proof.Machine

section
variable {s : State}

theorem sampleOf_timeout (h : s.smpTo = true) : sampleOf s = .timeout := if_pos h

theorem sampleOf_value (h : s.smpTo = false) : sampleOf s = .value s.smpVal := by
  rw [sampleOf, h]
  rfl

/-- `DEC c` on a Timeout holds the entry's weight and flag (41_step_detector.md R155). -/
theorem exec_dec_timeout (c : Chan) (h : s.smpTo = true) : exec (.dec c) s = .next { s with
    np := (s.bank.get c).prev
    ns := (s.bank.get c).step
    phase := .upd } := by
  rw [exec, execDec, sampleOf_timeout h]
  rfl

/-- `DEC c` on a Value compares it with the entry's weight (41_step_detector.md R151). -/
theorem exec_dec_value (c : Chan) (h : s.smpTo = false) : exec (.dec c) s = .next { s with
    np := s.smpVal
    ns := stepFlag s.smpVal s.cfg.threshold (s.bank.get c).prev
    phase := .upd } := by
  rw [exec, execDec, sampleOf_value h]
  rfl

/-- `UPD c` writes one entry; on a Timeout `LAST_VAL[c]` keeps its bits (42_channel_state.md R166). -/
theorem exec_upd (c : Chan) (s : State) : exec (.upd c) s = .next { s with
    bank := s.bank.set c
      { prev := s.np, lastTo := s.smpTo, lastVal := if s.smpTo then (s.bank.get c).lastVal else s.smpVal, step := s.ns }
    phase := .gate } := rfl

theorem exec_gate (c : Chan) (s : State) : exec (.gate c) s = .next { s with
    gate := s.gate.set c (s.bank.get c).step
    phase := .next
    trace := s.trace ++ [.setGate c (s.bank.get c).step] } := rfl

end

/-- The comparison in its other two forms, over the integers (41_step_detector.md R152, R153). -/
theorem stepFlag_iff {w : Word24} {threshold : Word32} {p : Word24} :
    (stepFlag w threshold p = true ↔ w.toInt > p.toInt + threshold.toInt)
      ∧ (stepFlag w threshold p = true ↔ w.toInt - p.toInt > threshold.toInt) := by
  rw [stepFlag, decide_eq_true_iff]
  omega

/-- Settles O17. -/
theorem decAppliesTheThresholdPolicy : Obligations.DecAppliesTheThresholdPolicy :=
  fun c _ => ⟨by cases c <;> decide, exec_dec_timeout c, exec_dec_value c⟩

/-- Settles O18: the flag of each case is the comparison of its own numbers. -/
theorem decWorkedCases : Obligations.DecWorkedCases := by
  intro c s hvalue hthreshold p hp hprev hsample
  refine ⟨_, exec_dec_value c hvalue, hsample, ?_⟩
  have hflag : ∀ p ∈ [((0 : Word24), (1500 : Word24), true), (0, 900, false), (2000, 2500, false), (2000, 3500, true)],
      stepFlag p.2.1 1000 p.1 = p.2.2 := by simp [stepFlag]
  rw [hsample, hthreshold, hprev, hflag p hp]

/-- Settles O19. -/
theorem decFormsOfTheComparisonAgree : Obligations.DecFormsOfTheComparisonAgree :=
  fun c _ hvalue => ⟨_, exec_dec_value c hvalue, stepFlag_iff⟩

/-- Settles O21: the three operations one after the other; `UPD` writes back the pair that `DEC` held. -/
theorem timeoutHoldsWeightAndGate : Obligations.TimeoutHoldsWeightAndGate := by
  intro c s htimeout
  refine ⟨_, _, _, exec_dec_timeout c htimeout, exec_upd c _, exec_gate c _, ?_, ?_, ?_, ?_⟩
  · simp [htimeout]
  · exact fun d hd => PerCh.get_set_ne _ _ hd
  · simp
  · simp

end Sys2Proof.Machine
end

section
/-! The channel's entry and gate: who writes them, and with what (42_channel_state.md R166 to R174). -/

namespace Sys2Proof.Machine

/-- Settles O20. -/
theorem updWritesOneEntry : Obligations.UpdWritesOneEntry :=
  fun c s => ⟨by cases c <;> decide, fun h => by simp [exec_upd, h], fun h => by simp [exec_upd, h]⟩

/-- Settles O22. -/
theorem gateEmitsTheStepFlag : Obligations.GateEmitsTheStepFlag :=
  fun c s => ⟨by cases c <;> decide, exec_gate c s⟩

/-- Settles O34: the block rests before `INIT`, every entry marked as a Timeout and every gate off as its flag. -/
theorem resetMeetsTheInvariant : Obligations.ResetMeetsTheInvariant where
  restsAtZero := iff_of_true rfl rfl
  channelLegal := Nat.zero_le _
  clockLow := rfl
  cycleStarted := fun hp => absurd rfl hp
  runningInited := nofun
  oneInit := nofun
  stoppedAtRest := nofun
  configLegal := nofun
  atShb := nofun
  atGpl := nofun
  atConv := nofun
  atUpd := nofun
  lastIsPrev := fun c h => by cases c <;> cases h
  gateIsStep := fun c => .inl (by cases c <;> rfl)

section
variable {i : Instr} {s t : State} {c : Chan}

/-- The gate of `c` is written by `GATE c` only (42_channel_state.md R172). -/
theorem exec_gate_frame (hi : i ≠ .gate c) (h : exec i s = .next t) : t.gate.get c = s.gate.get c := by
  rcases exec_next_cases h with ⟨_, rfl | ⟨rfl, _⟩⟩ | ⟨_, rfl⟩ | ⟨d, _, rfl⟩ | ⟨_, _, rfl⟩ | ⟨_, rfl⟩ | ⟨_, rfl⟩
    | ⟨_, _, rfl⟩ | ⟨_, _, rfl⟩ | ⟨d, rfl, rfl⟩ | ⟨_, ⟨_, rfl⟩ | ⟨_, rfl⟩⟩ | ⟨_, _, rfl⟩ | ⟨_, _, ⟨_, rfl⟩ | ⟨_, rfl⟩⟩
    | ⟨_, ⟨_, rfl⟩ | ⟨_, rfl⟩⟩ | ⟨_, rfl⟩ | ⟨_, _, rfl⟩
  case inr.inr.inl => rw [waitReady_frame]
  case inr.inr.inr.inr.inr.inr.inr.inr.inl => -- `GATE d`, which leaves the gate of any other channel
    refine PerCh.get_set_ne _ _ ?_
    rintro rfl
    exact hi rfl
  all_goals rfl

/-- A step performs one operation, an operation of the worker only in the worker's own move and by the worker's word, or
it ends the override pulse (00_scope.md R15, 60_exceptions.md R230). -/
theorem step_operation_cases (h : step s = .next t) :
    (∃ i, exec i (popMove s) = .next t ∧
        (i.agent = .worker → nextMove s = .worker ∧ decode s.fusionPresent (workerWord s) = .ok i))
      ∨ t = endPulse (popMove s) := by
  rcases step_next_cases h with ⟨own, w, i, hw, hd, hm, he⟩ | ⟨_, ht⟩
  · refine .inl ⟨i, he, fun ha => ?_⟩
    obtain rfl : own = true := by simpa [mayPerform, ha] using hm.symm
    cases hn : nextMove s <;> simp [hn, wordOf] at hw
    exact ⟨rfl, hw ▸ hd⟩
  · exact .inr ht

/-- At `UPD c` under the invariant, `NS` after a Timeout is the flag already held (41_step_detector.md R155). -/
theorem Invariant.upd_timeout_holds_step (hi : Invariant s) (hd : decode s.fusionPresent (workerWord s) = .ok (.upd c))
    (hto : s.smpTo = true) : s.ns = (s.bank.get c).step := by
  obtain hsusp | ⟨d, hc, hop⟩ := worker_performs hi hd
  · cases hsusp
  · cases hp : s.phase <;> rw [hp] at hop <;> cases hop
    exact ((hi.atUpd hp c hc).2 hto).2

end

/-- Settles O38: each is written by its one operation, the worker's; and a `UPD` that finds a Timeout writes back the
flag that `DEC` held. -/
theorem stepAndGateChangeOnlyInTheirOperations : Obligations.StepAndGateChangeOnlyInTheirOperations := by
  intro s t c hi h
  obtain ⟨i, he, hworker⟩ | rfl := step_operation_cases h
  · refine ⟨fun hne => ?_, fun hne => ?_⟩
    · obtain ⟨hupd, _⟩ := everyFlagHasItsWriters i _ t he
      obtain rfl := hupd c hne
      obtain ⟨hmove, hd⟩ := hworker rfl
      refine ⟨hmove, (encode_of_decode hd).1.symm, Bool.eq_false_iff.2 fun hto => hne ?_⟩
      injection he with he
      simp [← he, hi.upd_timeout_holds_step hd hto]
    · obtain rfl : i = .gate c := by
        by_contra hne'
        exact hne (exec_gate_frame (s := popMove s) hne' he)
      obtain ⟨hmove, hd⟩ := hworker rfl
      exact ⟨hmove, (encode_of_decode hd).1.symm⟩
  · exact ⟨fun hne => absurd rfl hne, fun hne => absurd rfl hne⟩

end Sys2Proof.Machine
end

section
/-! Whole cycles by the worker alone: the turn of one channel from its acquisition to its gate, the turns in order, and
what the cycle leaves of each channel, which no other channel's data line reaches (43_scheduler.md R196,
42_channel_state.md R171). -/

namespace Sys2Proof.Machine

/-! ### The order of the turns -/

/-- The channels in the order of their turns (43_scheduler.md R192). -/
def turnOrder : List Chan := [.c1, .c2, .c3, .c4]

/-- `PHASE` when the channels of a list have their turns still to come. -/
def turnPhase : List Chan → Phase
  | [] => .susp
  | _ :: _ => .clkl

/-- `CH` when the channels of a list have their turns still to come. -/
def turnCh : List Chan → BitVec 3
  | [] => 0
  | c :: _ => c.code

/-- `NEXT` begins the turn of the channel after `c`, or ends the cycle (43_scheduler.md R193). -/
theorem exec_next_of_turn {c : Chan} {cs : List Chan} {s : State} (hcs : c :: cs <:+ turnOrder) (hc : s.ch = c.code) :
    exec .next s = .next { s with ch := turnCh cs, phase := turnPhase cs } := by
  simp only [turnOrder, List.suffix_cons_iff, List.cons.injEq, List.suffix_nil, reduceCtorEq, or_false] at hcs
  rw [exec, execNext, hc]
  rcases hcs with ⟨rfl, rfl⟩ | ⟨rfl, rfl⟩ | ⟨rfl, rfl⟩ | ⟨rfl, rfl⟩ <;> rfl

/-! ### The turn of one channel -/

/-- `t` stands at `DEC c` after an acquisition from `s`: the sample is there and the rest is as it was. -/
structure Acquired (c : Chan) (s t : State) : Prop where
  phase : t.phase = .dec
  ch : t.ch = s.ch
  sample : sampleOf t = (s.amps.get c).sample c (pollBound c s)
  bank : t.bank = s.bank
  gate : t.gate = s.gate
  amps : ∀ d, d ≠ c → t.amps.get d = s.amps.get d
  cfg : t.cfg = s.cfg

/-- An acquisition gives the sample that the data line shows, whether a poll reads low or none does
(40_adc_acquire.md R132). -/
theorem run_acquisition {c : Chan} {s : State} (ha : s.agenda = []) (hp : s.phase = .clkl) (hc : s.ch = c.code)
    (he : s.cfg.extra.get c ≠ 0) : ∃ n t, run n s = .next t ∧ Acquired c s t := by
  cases hlow : (s.amps.get c).firstLow c (pollBound c s) with
  | some j =>
    obtain ⟨hlt, hhigh, hj⟩ := Amp.firstLow_some hlow
    obtain ⟨n, hn⟩ := Nat.exists_eq_add_of_le' (Nat.pos_of_ne_zero fun h0 => he (BitVec.eq_of_toNat_eq h0))
    have hwait := run_wait (24 + (n + 1 + 1)) ha hp hc
    rw [waitReady_ready (j := j), run_frame (c := c) n] at hwait
    · refine ⟨_, _, hwait, rfl, rfl, ?_, rfl, rfl, fun d hd => ?_, rfl⟩
      · simp [sampleOf, rawSample, Amp.sample, hlow]
      · simp [hd]
    exacts [ha, rfl, hc, rfl, hn.symm, hlt, hhigh, hj]
  | none =>
    have hwait := run_wait 0 ha hp hc
    rw [waitReady_timeout] at hwait
    · refine ⟨_, _, hwait, rfl, rfl, ?_, rfl, rfl, fun d hd => PerCh.get_set_ne _ _ hd, rfl⟩
      simp [sampleOf, rawSample, Amp.sample, hlow]
    exact Amp.firstLow_none hlow

/-- What `UPD c` writes after `DEC c` is the entry with the sample taken (43_scheduler.md R196). -/
theorem afterCycle_sampleOf (c : Chan) (s : State) : (s.bank.get c).afterCycle s.cfg.threshold (sampleOf s) =
    { prev := (decision (s.bank.get c) (sampleOf s) s.cfg.threshold).1
      lastTo := s.smpTo
      lastVal := if s.smpTo then (s.bank.get c).lastVal else s.smpVal
      step := (decision (s.bank.get c) (sampleOf s) s.cfg.threshold).2 } := by
  cases h : s.smpTo with
  | true => rw [sampleOf_timeout h]; rfl
  | false => rw [sampleOf_value h]; rfl

/-- `DEC`, `UPD`, `GATE` and `NEXT`: the entry takes the sample, the gate the entry's flag, and the next turn begins. -/
theorem run_decide {c : Chan} {cs : List Chan} {s : State} {e : Entry} (hcs : c :: cs <:+ turnOrder)
    (ha : s.agenda = []) (hp : s.phase = .dec) (hc : s.ch = c.code)
    (he : (s.bank.get c).afterCycle s.cfg.threshold (sampleOf s) = e) : run 4 s = .next { s with
      np := e.prev
      ns := e.step
      bank := s.bank.set c e
      gate := s.gate.set c e.step
      ch := turnCh cs
      phase := turnPhase cs
      trace := s.trace ++ [.setGate c e.step] } := by
  subst he
  rw [afterCycle_sampleOf, run_succ 3 ha hp hc rfl, run_succ 2 (p := .upd) ?_ ?_ ?_ (exec_upd c _),
    run_succ 1 (p := .gate) ?_ ?_ ?_ (exec_gate c _),
    run_succ 0 (p := .next) (c := c) ?_ ?_ ?_ (exec_next_of_turn hcs ?_), PerCh.get_set_self]
  · rfl
  exacts [ha, rfl, hc, hc, ha, rfl, hc, ha, rfl, hc]

/-- The entry that its turn leaves of channel `c`: a function of the entry, the configuration and what the channel's own
data line shows. -/
def turnEntry (c : Chan) (s : State) : Entry :=
  (s.bank.get c).afterCycle s.cfg.threshold ((s.amps.get c).sample c (pollBound c s))

theorem turnEntry_congr {c : Chan} {s t : State} (hbank : t.bank.get c = s.bank.get c)
    (hamp : t.amps.get c = s.amps.get c) (hcfg : t.cfg = s.cfg) : turnEntry c t = turnEntry c s := by
  simp only [turnEntry, pollBound, hbank, hamp, hcfg]

/-! ### The turns one after the other -/

/-- From `s` to `t` the channels of `cs` have had their turns and the others none. -/
structure Served (cs : List Chan) (s t : State) : Prop where
  served : ∀ c ∈ cs, t.bank.get c = turnEntry c s ∧ t.gate.get c = (turnEntry c s).step
  unserved : ∀ c ∉ cs, t.bank.get c = s.bank.get c ∧ t.gate.get c = s.gate.get c ∧ t.amps.get c = s.amps.get c
  cfg : t.cfg = s.cfg

theorem Served.nil (s : State) : Served [] s s := ⟨nofun, fun _ _ => ⟨rfl, rfl, rfl⟩, rfl⟩

/-- The turn of a channel, then those of others. -/
theorem Served.cons {c : Chan} {cs : List Chan} {s t u : State} (hc : c ∉ cs) (h : Served [c] s t)
    (h' : Served cs t u) : Served (c :: cs) s u where
  served := by
    refine List.forall_mem_cons.2 ⟨?_, fun d hd => ?_⟩
    · obtain ⟨hbank, hgate, _⟩ := h'.unserved c hc
      rw [hbank, hgate]
      exact h.served c (List.mem_singleton_self c)
    · obtain ⟨hbank, _, hamp⟩ := h.unserved d fun hdc => hc (List.mem_singleton.1 hdc ▸ hd)
      rw [← turnEntry_congr hbank hamp h.cfg]
      exact h'.served d hd
  unserved := fun d hd => by
    obtain ⟨hdc, hdcs⟩ := not_or.1 (mt List.mem_cons.2 hd)
    obtain ⟨hbank, hgate, hamp⟩ := h.unserved d (mt List.mem_singleton.1 hdc)
    obtain ⟨hbank', hgate', hamp'⟩ := h'.unserved d hdcs
    exact ⟨hbank'.trans hbank, hgate'.trans hgate, hamp'.trans hamp⟩
  cfg := h'.cfg.trans h.cfg

/-- The turn of one channel serves that channel. -/
theorem run_turn {c : Chan} {cs : List Chan} {s : State} (hcs : c :: cs <:+ turnOrder) (ha : s.agenda = [])
    (hp : s.phase = .clkl) (hc : s.ch = c.code) (he : s.cfg.extra.get c ≠ 0) :
    ∃ n t, run n s = .next t ∧ t.phase = turnPhase cs ∧ t.ch = turnCh cs ∧ Served [c] s t := by
  obtain ⟨n, u, hu, hacq⟩ := run_acquisition ha hp hc he
  have hentry : (u.bank.get c).afterCycle u.cfg.threshold (sampleOf u) = turnEntry c s := by
    rw [hacq.bank, hacq.cfg, hacq.sample, turnEntry]
  have hdecide := run_decide hcs (run_agenda_nil ha hu) hacq.phase (hacq.ch.trans hc) hentry
  refine ⟨n + 4, _, (run_add 4 hu).trans hdecide, rfl, rfl, List.forall_mem_singleton.2 ?_, fun d hd => ?_, hacq.cfg⟩
  · exact ⟨PerCh.get_set_self .., PerCh.get_set_self ..⟩
  · have hdc := mt List.mem_singleton.2 hd
    simp [hdc, hacq.bank, hacq.gate, hacq.amps d hdc]

/-- The worker gives the channels of `cs` their turns and rests. -/
theorem run_turns {cs : List Chan} {s : State} (hcs : cs <:+ turnOrder) (ha : s.agenda = [])
    (hp : s.phase = turnPhase cs) (hc : s.ch = turnCh cs) (he : ∀ c, s.cfg.extra.get c ≠ 0) :
    ∃ n t, run n s = .next t ∧ t.phase = .susp ∧ Served cs s t := by
  induction cs generalizing s with
  | nil => exact ⟨0, s, rfl, hp, .nil s⟩
  | cons c cs ih =>
    obtain ⟨n, t, ht, htp, htc, hone⟩ := run_turn hcs ha hp hc (he c)
    obtain ⟨m, u, hu, hup, hrest⟩ :=
      ih ((List.suffix_cons c cs).trans hcs) (run_agenda_nil ha ht) htp htc (hone.cfg ▸ he)
    have hnodup : (c :: cs).Nodup := hcs.sublist.nodup (by decide)
    exact ⟨n + m, u, (run_add m ht).trans hu, hup, hone.cons (List.nodup_cons.1 hnodup).1 hrest⟩

/-- A whole cycle gives every channel its turn. -/
theorem run_cycle {s : State} (ha : s.agenda = []) (hp : s.phase = .clkl) (hc : s.ch = 1)
    (he : ∀ c, s.cfg.extra.get c ≠ 0) : ∃ n t, run n s = .next t ∧ t.phase = .susp ∧
      ∀ c, t.bank.get c = turnEntry c s ∧ t.gate.get c = (turnEntry c s).step := by
  obtain ⟨n, t, ht, htp, hserved⟩ := run_turns List.suffix_rfl ha hp hc he
  exact ⟨n, t, ht, htp, fun c => hserved.served c (by cases c <;> decide)⟩

/-- Settles O49: each cycle leaves of channel `c` what `turnEntry` says, which reads nothing of channel `d`. -/
theorem channelsAreIndependentInACycle : Obligations.ChannelsAreIndependentInACycle := by
  intro s d a ha hp hc he
  obtain ⟨n, t, ht, htp, hturns⟩ := run_cycle ha hp hc he
  obtain ⟨n', t', ht', htp', hturns'⟩ := run_cycle (s := { s with amps := s.amps.set d a }) ha hp hc he
  refine ⟨n, n', t, t', ht, ht', htp, htp', fun c hcd => ?_⟩
  obtain ⟨hbank, hgate⟩ := hturns c
  obtain ⟨hbank', hgate'⟩ := hturns' c
  have hsame : turnEntry c { s with amps := s.amps.set d a } = turnEntry c s :=
    turnEntry_congr rfl (PerCh.get_set_ne _ _ hcd) rfl
  rw [hbank, hgate, hbank', hgate', hsame]
  exact ⟨rfl, rfl⟩

end Sys2Proof.Machine
end

section
/-! The scheduler's own operations: `INIT` and `TICK` outside their conditions, `NEXT`, `SUSP`, what `CONFIG_OK` demands
(43_scheduler.md R187 to R194), and the rest over a stop request (R197). -/

namespace Sys2Proof

/-- A claim about the four values is a claim about every channel's. -/
theorem PerCh.forall_mem_toList {α : Type} {v : PerCh α} {P : α → Prop} :
    (∀ x ∈ v.toList, P x) ↔ ∀ c, P (v.get c) := by
  simp only [PerCh.mem_toList, forall_exists_index, forall_apply_eq_imp_iff]

/-- The four values are pairwise distinct when any two channels' are. -/
theorem PerCh.nodup_toList {α : Type} {v : PerCh α} : v.toList.Nodup ↔ ∀ c d, c ≠ d → v.get c ≠ v.get d := by
  have hmap : v.toList = Machine.turnOrder.map v.get := rfl
  have hmem : ∀ c, c ∈ Machine.turnOrder := fun c => by cases c <;> decide
  rw [hmap, List.nodup_map_iff_inj_on (by decide)]
  exact ⟨fun h c d hcd he => hcd (h c (hmem c) d (hmem d) he), fun h c _ d _ he => by_contra fun hcd => h c d hcd he⟩

namespace Machine

section
variable {s t : State}

/-! ### `INIT` and `TICK` -/

theorem exec_init_refused (h : initAllowed s = false) : exec .init s = .refused .initOutsidePrecondition := by
  simp [exec, execInit, h]

theorem exec_tick_accepted (h : tickAccepted s = true) :
    exec .tick s = .next { s with sched := .running, ch := 1, phase := .clkl } := by
  simp [exec, execTick, h]

theorem exec_tick_dropped (h : tickAccepted s = false) : exec .tick s = .next s := by
  simp [exec, execTick, h]

/-- The grounds on which a tick is dropped (43_scheduler.md R190). -/
theorem tickAccepted_eq_false_iff :
    tickAccepted s = false ↔
      s.phase ≠ .susp ∨ s.inited = false ∨ s.cfgErr = true ∨ s.stopped = true ∨ s.stopReq = true := by
  rw [← Bool.not_eq_true, tickAccepted_iff]
  simp only [not_and_or, Bool.not_eq_true, Bool.not_eq_false, ne_eq]

/-- The grounds on which `INIT` is refused (43_scheduler.md R186, R188). -/
theorem initAllowed_eq_false_iff :
    initAllowed s = false ↔ s.inited = true ∨ s.cfgErr = true ∨ s.sched = .running := by
  have hidle : s.sched ≠ .idle ↔ s.sched = .running := by cases s.sched <;> simp
  rw [← Bool.not_eq_true, initAllowed_iff, not_and_or, not_and_or, Bool.not_eq_false, Bool.not_eq_false, ← ne_eq, hidle,
    or_comm, or_assoc]

/-! ### `NEXT` and `SUSP` -/

theorem exec_next_more (h : s.ch.toNat < 4) : exec .next s = .next { s with ch := s.ch + 1, phase := .clkl } :=
  congrArg _ (if_pos h)

theorem exec_next_last (h : 4 ≤ s.ch.toNat) : exec .next s = .next { s with ch := 0, phase := .susp } :=
  congrArg _ (if_neg (Nat.not_lt.2 h))

theorem exec_susp_hold (h : stopDue s = false) : exec .susp s = .next s := by
  simp [exec, execSusp, h]

theorem exec_susp_stop (h : stopDue s = true) : exec .susp s = .next { s with stopped := true } := by
  simp [exec, execSusp, h]

end

/-- Settles O28. -/
theorem secondInitIsRefused : Obligations.SecondInitIsRefused :=
  ⟨fun _ h => exec_init_refused (initAllowed_eq_false_iff.2 h),
    fun _ h => exec_tick_dropped (tickAccepted_eq_false_iff.2 (.inr (.inl h)))⟩

/-- Settles O29. -/
theorem tickStartsACycleOrIsDropped : Obligations.TickStartsACycleOrIsDropped :=
  ⟨by decide, fun _ hp hi he hs hr => exec_tick_accepted (tickAccepted_iff.2 ⟨hp, hi, he, hs, hr⟩),
    fun _ h => exec_tick_dropped (tickAccepted_eq_false_iff.2 h)⟩

/-- Settles O30. -/
theorem nextMovesToTheNextChannel : Obligations.NextMovesToTheNextChannel :=
  ⟨by decide, fun _ => exec_next_more, fun _ => exec_next_last⟩

/-- Settles O31. -/
theorem suspHoldsEverything : Obligations.SuspHoldsEverything :=
  ⟨by decide, fun _ _ hr => exec_susp_hold (by simp [stopDue, hr]),
    fun _ hp hr => exec_susp_stop (by simp [stopDue, hp, hr]), fun _ hp => exec_susp_hold (by simp [stopDue, hp])⟩

/-- Settles O26: the identifiers, the counts and the bounds channel by channel. -/
theorem configOkIsTheListedConditions : Obligations.ConfigOkIsTheListedConditions := by
  intro r
  have hassigned : (∀ l ∈ lineIds r, l.isSome) ↔ r.clkLine ≠ none ∧ ∀ c, r.dataLine.get c ≠ none := by
    simp only [lineIds, List.forall_mem_cons, PerCh.forall_mem_toList, Option.isSome_iff_ne_none]
  have hdistinct : (lineIds r).Nodup ↔
      (∀ c, r.dataLine.get c ≠ r.clkLine) ∧ ∀ c d, c ≠ d → r.dataLine.get c ≠ r.dataLine.get d := by
    rw [lineIds, List.nodup_cons, PerCh.mem_toList, not_exists, PerCh.nodup_toList]
  have hextra : ∀ n, 1 ≤ n ∧ n ≤ 3 ↔ n = 1 ∨ n = 2 ∨ n = 3 := fun n => by omega
  simp only [configOk, Bool.and_eq_true, List.all_eq_true, decide_eq_true_eq, hassigned, hdistinct, hextra,
    PerCh.forall_mem_toList, and_assoc]

/-- Settles O42: an `INIT` is refused inside a cycle, a tick dropped; the other three touch what is listed only. -/
theorem outsideMovesDoNotDisturbACycle : Obligations.OutsideMovesDoNotDisturbACycle := by
  intro i s t hi hp ha h
  cases i with
  | rdl c =>
    injection h with h
    exact h ▸ rfl
  | init =>
    rw [exec_init_refused (initAllowed_eq_false_iff.2 (.inr (.inr (hi.cycleStarted hp))))] at h
    cases h
  | tick =>
    rw [exec_tick_dropped (tickAccepted_eq_false_iff.2 (.inl hp))] at h
    injection h with h
    exact h ▸ rfl
  | stop =>
    injection h with h
    exact h ▸ rfl
  | amb =>
    obtain ⟨_, rfl⟩ := ite_next_iff.1 h
    rfl
  | susp | clkl | wrdy | shb | gpl | conv | dec | upd | gate | next => exact absurd rfl ha

/-! ### The rest over a stop request -/

/-- `t` rests over a stop request with all that a cycle would move as it was in `s` (43_scheduler.md R197). -/
structure RestsStopped (s t : State) : Prop where
  stopReq : t.stopReq = true
  phase : t.phase = .susp
  ch : t.ch = s.ch
  sck : t.sck = false
  bank : t.bank = s.bank
  gate : t.gate = s.gate
  stopped : s.stopped = true → t.stopped = true

section
variable {s t u : State}

/-- `SUSP` and every operation from outside keep the rest. -/
theorem exec_keeps_restsStopped {i : Instr} (hr : RestsStopped s t) (hi : i = .susp ∨ i.agent ≠ .worker)
    (h : exec i t = .next u) : RestsStopped s u := by
  cases i with
  | susp =>
    rw [exec_susp_stop (by simp [stopDue, hr.stopReq, hr.phase])] at h
    injection h with h
    exact h ▸ { hr with stopped := fun _ => rfl }
  | rdl c =>
    injection h with h
    exact h ▸ { hr with }
  | init =>
    obtain ⟨_, h⟩ := ite_next_iff.1 h
    split at h
    · rw [loadConfig_eq] at h
      exact h ▸ { hr with sck := rfl }
    · exact h ▸ { hr with }
  | tick =>
    rw [exec_tick_dropped (tickAccepted_eq_false_iff.2 (by simp [hr.stopReq]))] at h
    injection h with h
    exact h ▸ hr
  | stop =>
    injection h with h
    exact h ▸ { hr with stopReq := rfl }
  | amb =>
    obtain ⟨_, rfl⟩ := ite_next_iff.1 h
    exact { hr with }
  | clkl | wrdy | shb | gpl | conv | dec | upd | gate | next => exact absurd hi (by simp [Instr.agent])

theorem step_keeps_restsStopped (hr : RestsStopped s t) (h : step t = .next u) : RestsStopped s u := by
  have hpop : RestsStopped s (popMove t) := { hr with }
  rcases step_agent_cases h with ⟨i, hd, he⟩ | ⟨i, ha, he⟩ | rfl
  · have hsusp := (decode_workerWord_plain t).1 hr.phase
    exact exec_keeps_restsStopped hpop (.inl (Except.ok.inj (hd.symm.trans hsusp))) he
  · exact exec_keeps_restsStopped hpop (.inr ha) he
  · exact { hpop with }

end

/-- Settles O50: every step keeps the rest, so every run does. -/
theorem afterAStopNoCycleRuns : Obligations.AfterAStopNoCycleRuns := by
  intro n s t hreq hp hsck h
  obtain ⟨hreq, hp, hch, hsck, hbank, hgate, hstopped⟩ :=
    run_keeps (P := RestsStopped s) (fun _ _ => step_keeps_restsStopped) ⟨hreq, hp, rfl, hsck, rfl, rfl, id⟩ h
  exact ⟨hreq, hp, hch, hsck, hbank, hgate, hstopped⟩

end Machine

end Sys2Proof
end

section
/-! The worker's transition table (43_scheduler.md R195). -/

namespace Sys2Proof.Machine

section
variable {s : State}

/-- In its move the worker performs the operation at its position, on the channel that `CH` names where one is taken. -/
theorem step_of_position {p : Phase} (c : Chan) (hn : nextMove s = .worker) (hp : s.phase = p)
    (hc : p.takesChannel = true → s.ch = c.code) : step s = exec (opAt p c) (popMove s) := by
  have hw : workerWord s = encode (opAt p c) := by
    rw [workerWord, hp]
    cases p with
    | wrdy | shb | dec | upd | gate => simp [hc rfl, Phase.takesChannel, opAt, encode, Phase.code]
    | susp | clkl | gpl | conv | next => rfl
  have hwf : WellFormed s.fusionPresent (opAt p c) = true := by cases p <;> rfl
  rw [step_of_worker hn, hw]
  exact perform_worker (s := popMove s) _ (decode_encode hwf) (opAt_agent p c)

/-- A tick asked for first on the agenda is performed. -/
theorem step_of_tick {rest : List Move} (ha : s.agenda = .outside (encode .tick) :: rest) :
    step s = exec .tick (popMove s) := by
  have hd : decode (popMove s).fusionPresent (encode .tick) = .ok .tick := decode_encode rfl
  have hmove : wordOf (nextMove s) s = some (false, encode .tick) := by simp [nextMove, ha, wordOf]
  simp only [step, hmove, perform, hd]
  rfl

end

/-- The rows of `SHB` in the counter's own number. -/
theorem phase_after_bit {b : BitVec 5} (h : b.toNat < 24) :
    (b + 1).toNat = b.toNat + 1
      ∧ (if b + 1 = 24 then Phase.gpl else .shb) = if (b + 1).toNat < 24 then .shb else .gpl := by
  have hb : (b + 1).toNat = b.toNat + 1 := by bv_omega
  refine ⟨hb, ?_⟩
  by_cases h24 : b + 1 = 24
  · rw [if_pos h24, if_neg (by rw [h24]; decide)]
  · rw [if_neg h24, if_pos (by bv_omega)]

/-- The rows of `GPL` in the counter's own number. -/
theorem phase_after_pulse {g x : BitVec 2} (h : g.toNat < x.toNat) :
    (g + 1).toNat = g.toNat + 1
      ∧ (if g + 1 = x then Phase.conv else .gpl) = if (g + 1).toNat < x.toNat then .gpl else .conv := by
  have hg : (g + 1).toNat = g.toNat + 1 := by bv_omega
  refine ⟨hg, ?_⟩
  by_cases hx : g + 1 = x
  · rw [if_pos hx, if_neg (by rw [hx]; exact Nat.lt_irrefl _)]
  · rw [if_neg hx, if_pos (by bv_omega)]

/-- Settles O7: in each row the step is the operation of the row, whose law gives the next position. -/
theorem workerFollowsTheTransitionTable : Obligations.WorkerFollowsTheTransitionTable := by
  refine ⟨fun s rest ha hp hi he hs hr => ?accepted, fun s rest ha hp hc hground => ?dropped,
    fun s hn hp hc => ?susp, fun s hn hp => ?clkl, fun c s hn hp hc hm => ?wrdy, fun c s hn hp hc hb => ?shb,
    fun c s hn hp hc hg => ?gpl, fun s hn hp => ?conv, fun c s hn hc => ⟨fun hp => ?dec, fun hp => ?upd, fun hp => ?gate⟩,
    fun s hn hp => ?next⟩
  case accepted =>
    have hok : tickAccepted (popMove s) = true := tickAccepted_iff.2 ⟨hp, hi, he, hs, hr⟩
    exact ⟨_, (step_of_tick ha).trans (exec_tick_accepted hok), rfl, rfl⟩
  case dropped =>
    have hno : tickAccepted (popMove s) = false := tickAccepted_eq_false_iff.2 (.inr hground)
    exact ⟨_, (step_of_tick ha).trans (exec_tick_dropped hno), hp, hc⟩
  case susp =>
    have hstep := step_of_position .c1 hn hp nofun
    cases hdue : stopDue (popMove s) with
    | false => exact ⟨_, hstep.trans (exec_susp_hold hdue), hp, hc⟩
    | true => exact ⟨_, hstep.trans (exec_susp_stop hdue), hp, hc⟩
  case clkl =>
    exact ⟨_, step_of_position .c1 hn hp nofun, rfl, rfl⟩
  case wrdy =>
    have hstep := step_of_position c hn hp fun _ => hc
    obtain ⟨_, hwait⟩ := wrdyWaitsForALowLineUpToTheBound c (popMove s)
    obtain ⟨hready, htimeout, ⟨j, hj, hhigh, hlow⟩ | hhigh⟩ := hwait hm
    · refine ⟨_, hstep.trans (hready j hj hhigh hlow), rfl, fun _ => rfl, fun hall => ?_⟩
      exact absurd ((hall j hj).symm.trans hlow) (by decide)
    · refine ⟨_, hstep.trans (htimeout hhigh), rfl, fun ⟨j, hj, hlow⟩ => ?_, fun _ => rfl⟩
      exact absurd ((hhigh j hj).symm.trans hlow) (by decide)
  case shb =>
    obtain ⟨hcount, hphase⟩ := phase_after_bit hb
    exact ⟨_, (step_of_position c hn hp fun _ => hc).trans (exec_shb c _), rfl, hcount, hphase⟩
  case gpl =>
    obtain ⟨hcount, hphase⟩ := phase_after_pulse hg
    exact ⟨_, (step_of_position c hn hp fun _ => hc).trans (exec_gpl (s := popMove s) hc), rfl, hcount, hphase⟩
  case conv =>
    exact ⟨_, step_of_position .c1 hn hp nofun, rfl, rfl⟩
  case dec | upd | gate => exact ⟨_, step_of_position c hn hp fun _ => hc, rfl, rfl⟩
  case next =>
    have hstep := step_of_position .c1 hn hp nofun
    rcases Nat.lt_or_ge s.ch.toNat 4 with hch | hch
    · refine ⟨_, hstep.trans (exec_next_more hch), fun _ => ⟨rfl, ?_⟩, fun h4 => ?_⟩
      · change (s.ch + 1).toNat = s.ch.toNat + 1
        bv_omega
      · simp [h4] at hch
    · exact ⟨_, hstep.trans (exec_next_last hch), fun hlt => absurd hlt (Nat.not_lt.2 hch), fun _ => ⟨rfl, rfl⟩⟩

end Sys2Proof.Machine
end

section
/-! The operations the worker performs in the turn of a channel and in a cycle, one by one (30_encoding.md R109), with all
that each turn leaves (43_scheduler.md R196, R202). -/

namespace Sys2Proof.Machine

/-! ### Runs of the worker by their operations -/

/-- From `s` to `t` the worker, alone, performs the operations of a list. -/
inductive Performs : List Instr → State → State → Prop where
  | nil (s : State) : Performs [] s s
  | cons {is : List Instr} {s t u : State} (p : Phase) (c : Chan) (agenda : s.agenda = []) (phase : s.phase = p)
      (ch : s.ch = c.code) (op : exec (opAt p c) s = .next t) (rest : Performs is t u) : Performs (opAt p c :: is) s u

section
variable {is js : List Instr} {s t u : State}

/-- The run of that many steps ends there. -/
theorem Performs.run (h : Performs is s t) : run is.length s = .next t := by
  induction h with
  | nil => rfl
  | cons p c ha hp hc hop _ ih => exact (run_succ _ ha hp hc hop).trans ih

theorem performed_succ {c : Chan} {p : Phase} (n : Nat) (ha : s.agenda = []) (hp : s.phase = p) (hc : s.ch = c.code)
    (h : exec (opAt p c) s = .next t) : performed (n + 1) s = encode (opAt p c) :: performed n t := by
  have hword : wordOf (nextMove s) s = some (true, encode (opAt p c)) := by
    rw [nextMove_nil ha, wordOf, workerWord_of_channel hc, hp]
  have hstep : step s = .next t := by rw [step_worker ha hc, hp, h]
  simp only [performed, hword, hstep]

/-- Their op words are those performed in these steps. -/
theorem Performs.performed (h : Performs is s t) : performed is.length s = encodeTrace is := by
  induction h with
  | nil => rfl
  | cons p c ha hp hc hop _ ih => exact (performed_succ _ ha hp hc hop).trans (congrArg _ ih)

theorem Performs.append (h : Performs is s t) (h' : Performs js t u) : Performs (is ++ js) s u := by
  induction h with
  | nil => exact h'
  | cons p c ha hp hc hop _ ih => exact .cons p c ha hp hc hop (ih h')

/-- The run of that many steps says where they end. -/
theorem Performs.of_run (h : Performs is s t) (hrun : Machine.run is.length s = .next u) : Performs is s u := by
  obtain rfl : t = u := by simpa [h.run] using hrun
  exact h

theorem Performs.agenda (ha : s.agenda = []) (h : Performs is s t) : t.agenda = [] := run_agenda_nil ha h.run

end

/-! ### The operations of a turn -/

section
variable {c : Chan} {s : State}

/-- The last `n + 1` bits of a frame are as many `SHB c`. -/
theorem performs_bits (n : Nat) (ha : s.agenda = []) (hp : s.phase = .shb) (hc : s.ch = c.code)
    (hb : s.bitCnt.toNat + (n + 1) = 24) : ∃ t, Performs (List.replicate (n + 1) (.shb c)) s t := by
  induction n generalizing s with
  | zero => exact ⟨_, .cons .shb c ha hp hc (exec_shb c s) (.nil _)⟩
  | succ n ih =>
    have hmore : s.bitCnt + 1 ≠ 24 := by bv_omega
    refine (ih ?_ ?_ ?_ ?_).imp fun t ht => .cons .shb c ha hp hc (exec_shb c s) ht
    exacts [ha, if_neg hmore, hc, by bv_omega]

/-- The last `n + 1` extra pulses of a frame are as many `GPL`. -/
theorem performs_pulses (n : Nat) (ha : s.agenda = []) (hp : s.phase = .gpl) (hc : s.ch = c.code)
    (hg : s.gCnt.toNat + (n + 1) = (s.cfg.extra.get c).toNat) : ∃ t, Performs (List.replicate (n + 1) .gpl) s t := by
  induction n generalizing s with
  | zero => exact ⟨_, .cons .gpl c ha hp hc (exec_gpl hc) (.nil _)⟩
  | succ n ih =>
    have hmore : s.gCnt + 1 ≠ s.cfg.extra.get c := by bv_omega
    refine (ih ?_ ?_ ?_ ?_).imp fun t ht => .cons .gpl c ha hp hc (exec_gpl hc) ht
    exacts [ha, if_neg hmore, hc, by bv_omega]

/-- The frame and the conversion. -/
theorem performs_frame {e : Nat} (ha : s.agenda = []) (hp : s.phase = .shb) (hc : s.ch = c.code) (hb : s.bitCnt = 0)
    (he : e = (s.cfg.extra.get c).toNat) (he1 : 1 ≤ e) : ∃ t, Performs (frameOps c e ++ [.conv]) s t := by
  obtain ⟨n, rfl⟩ := Nat.exists_eq_add_of_le' he1
  have hb24 : s.bitCnt.toNat + (23 + 1) = 24 := by rw [hb]; rfl
  obtain ⟨_, hbits⟩ := performs_bits 23 ha hp hc hb24
  replace hbits := hbits.of_run (by simpa using run_bits 23 ha hp hc hb24)
  obtain ⟨_, hpulses⟩ := performs_pulses n (hbits.agenda ha) rfl hc ((Nat.zero_add _).trans he)
  replace hpulses := hpulses.of_run (by simpa using run_pulses n (hbits.agenda ha) rfl hc ((Nat.zero_add _).trans he))
  exact ⟨_, (hbits.append hpulses).append (.cons .conv c ha rfl hc rfl (.nil _))⟩

/-- The acquisition, with its frame when a poll reads low. -/
theorem performs_acqOps {e : Nat} (ha : s.agenda = []) (hp : s.phase = .clkl) (hc : s.ch = c.code)
    (he : e = (s.cfg.extra.get c).toNat) (he1 : 1 ≤ e) :
    ∃ t, Performs (acqOps c ((s.amps.get c).firstLow c (pollBound c s)).isSome e) s t := by
  cases hlow : (s.amps.get c).firstLow c (pollBound c s) with
  | some j =>
    obtain ⟨hlt, hhigh, hj⟩ := Amp.firstLow_some hlow
    obtain ⟨t, ht⟩ : ∃ t, Performs (frameOps c e ++ [.conv]) (waitReady c { s with
        sck := false
        phase := .wrdy
        trace := s.trace ++ [.lineWrite s.cfg.clkLine false] }) t := by
      rw [waitReady_ready (j := j)]
      exacts [performs_frame ha rfl hc rfl he he1, hlt, hhigh, hj]
    exact ⟨t, .cons .clkl c ha hp hc (exec_clkl s) (.cons .wrdy c ha rfl hc rfl ht)⟩
  | none => exact ⟨_, .cons .clkl c ha hp hc (exec_clkl s) (.cons .wrdy c ha rfl hc rfl (.nil _))⟩

theorem acqOps_length (c : Chan) (ready : Bool) (e : Nat) :
    (acqOps c ready e).length = if ready then 27 + e else 2 := by
  cases ready with
  | false => rfl
  | true =>
    simp [acqOps, frameOps, Config.nDataPulses]
    omega

theorem chanOps_length (c : Chan) (ready : Bool) (e : Nat) :
    (chanOps c ready e).length = if ready then 31 + e else 6 := by
  rw [chanOps, List.length_append, acqOps_length]
  cases ready with
  | false => rfl
  | true => exact Nat.add_right_comm 27 e 4

end

/-! ### What a turn leaves -/

section
variable (c : Chan) (s : State)

/-- The sample that the turn of channel `c` gives. -/
def turnSample : RawSample := (s.amps.get c).sample c (s.cfg.maxPolls.get c)

/-- The operations of the turn of channel `c`. -/
def turnOps : List Instr := chanOps c (decide (turnSample c s ≠ .timeout)) (s.cfg.extra.get c).toNat

/-- What the turn of channel `c` records: the lines, a Timeout, and the gate last (20_memory.md R74). -/
def turnEvents : List Event :=
  acqTrace c s.cfg (s.amps.get c) (s.cfg.maxPolls.get c)
    ++ (if turnSample c s = .timeout then [.raised (.deviceNotReady c)] else [])
    ++ [.setGate c (turnEntry c s).step]

end

/-- `t` stands at `DEC c` after an acquisition from `s`, with the clock low and the lines recorded. -/
structure AcquiredWithTrace (c : Chan) (s t : State) : Prop extends Acquired c s t where
  sck : t.sck = false
  trace : t.trace = s.trace ++ acqTrace c s.cfg (s.amps.get c) (s.cfg.maxPolls.get c)
    ++ (if turnSample c s = .timeout then [.raised (.deviceNotReady c)] else [])

/-- `t` stands after the turn of channel `c` from `s`, with the channels of `cs` still to come. -/
structure TurnEnded (c : Chan) (cs : List Chan) (s t : State) : Prop where
  phase : t.phase = turnPhase cs
  ch : t.ch = turnCh cs
  bank : t.bank = s.bank.set c (turnEntry c s)
  gate : t.gate = s.gate.set c (turnEntry c s).step
  trace : t.trace = s.trace ++ turnEvents c s
  amps : ∀ d, d ≠ c → t.amps.get d = s.amps.get d
  cfg : t.cfg = s.cfg
  sck : t.sck = false

section
variable {c : Chan} {cs : List Chan} {s t : State}

/-- An acquisition is ready exactly when it gives no Timeout (40_adc_acquire.md R132). -/
theorem isSome_firstLow {a : Amp} {m : Nat} : (a.firstLow c m).isSome = decide (a.sample c m ≠ .timeout) := by
  rw [Amp.sample]
  cases a.firstLow c m <;> simp

theorem turnEntry_eq (hm : 1 ≤ s.cfg.maxPolls.get c) :
    turnEntry c s = (s.bank.get c).afterCycle s.cfg.threshold (turnSample c s) := by
  rw [turnEntry, pollBound_eq hm, turnSample]

/-- The acquisition of a turn, both outcomes. -/
theorem performs_acquisition (ha : s.agenda = []) (hp : s.phase = .clkl) (hc : s.ch = c.code)
    (he : 1 ≤ (s.cfg.extra.get c).toNat) (hm : 1 ≤ s.cfg.maxPolls.get c) :
    ∃ t, Performs (acqOps c (decide (turnSample c s ≠ .timeout)) (s.cfg.extra.get c).toNat) s t
      ∧ AcquiredWithTrace c s t := by
  obtain ⟨hready, htimeout⟩ := acquisitionGivesTheSampleAndItsTrace c s _ _ _ ha hp hc rfl rfl hm rfl he
  obtain ⟨_, ht⟩ := performs_acqOps ha hp hc rfl he
  rw [pollBound_eq hm, isSome_firstLow] at ht
  have hsample : turnSample c s = (s.amps.get c).sample c (pollBound c s) := by rw [turnSample, pollBound_eq hm]
  cases hlow : (s.amps.get c).firstLow c (s.cfg.maxPolls.get c) with
  | some j =>
    have hx : turnSample c s = .value (conv24 (((s.amps.get c).after (j + 1)).word c)) := by
      simp [turnSample, Amp.sample, hlow]
    have hlen := acqOps_length c (decide (turnSample c s ≠ .timeout)) (s.cfg.extra.get c).toNat
    rw [if_pos (by simp [hx])] at hlen
    replace ht := ht.of_run ((congrArg (run · s) hlen).trans (hready j hlow))
    exact ⟨_, ht, ⟨rfl, rfl, hx.symm.trans hsample, rfl, rfl, fun d hd => PerCh.get_set_ne _ _ hd, rfl⟩,
      rfl, by simp [hx]⟩
  | none =>
    have hx : turnSample c s = .timeout := by simp [turnSample, Amp.sample, hlow]
    have hlen := acqOps_length c (decide (turnSample c s ≠ .timeout)) (s.cfg.extra.get c).toNat
    rw [if_neg (by simp [hx])] at hlen
    replace ht := ht.of_run ((congrArg (run · s) hlen).trans (htimeout hlow))
    exact ⟨_, ht, ⟨rfl, rfl, hx.symm.trans hsample, rfl, rfl, fun d hd => PerCh.get_set_ne _ _ hd, rfl⟩,
      rfl, by simp [hx]⟩

/-- The turn of a channel: its acquisition, its decision, its gate. -/
theorem performs_turn (hcs : c :: cs <:+ turnOrder) (ha : s.agenda = []) (hp : s.phase = .clkl) (hc : s.ch = c.code)
    (he : 1 ≤ (s.cfg.extra.get c).toNat) (hm : 1 ≤ s.cfg.maxPolls.get c) :
    ∃ t, Performs (turnOps c s) s t ∧ TurnEnded c cs s t := by
  obtain ⟨u, hu, hacq⟩ := performs_acquisition ha hp hc he hm
  have hau := hu.agenda ha
  have hcu := hacq.ch.trans hc
  have hentry : (u.bank.get c).afterCycle u.cfg.threshold (sampleOf u) = turnEntry c s := by
    rw [hacq.bank, hacq.cfg, hacq.sample, turnEntry]
  obtain ⟨_, hdecide⟩ : ∃ t, Performs [.dec c, .upd c, .gate c, .next] u t :=
    ⟨_, .cons .dec c hau hacq.phase hcu rfl (.cons .upd c hau rfl hcu rfl (.cons .gate c hau rfl hcu rfl
      (.cons .next c hau rfl hcu (exec_next_of_turn hcs hcu) (.nil _))))⟩
  refine ⟨_, hu.append (hdecide.of_run (run_decide hcs hau hacq.phase hcu hentry)),
    rfl, rfl, ?_, ?_, ?_, hacq.amps, hacq.cfg, hacq.sck⟩
  · simp only [hacq.bank]
  · simp only [hacq.gate]
  · simp only [hacq.trace, turnEvents, List.append_assoc]

end

/-- The turns still to come after that of channel `c`, and where `NEXT` goes. -/
theorem exists_turns_after (c : Chan) : ∃ cs, c :: cs <:+ turnOrder
    ∧ (c ≠ .c4 → turnPhase cs = .clkl ∧ turnCh cs = c.code + 1) ∧ (c = .c4 → turnPhase cs = .susp ∧ turnCh cs = 0) := by
  cases c with
  | c1 => exact ⟨[.c2, .c3, .c4], by decide, by decide, by decide⟩
  | c2 => exact ⟨[.c3, .c4], by decide, by decide, by decide⟩
  | c3 => exact ⟨[.c4], by decide, by decide, by decide⟩
  | c4 => exact ⟨[], by decide, by decide, by decide⟩

/-- Settles O47: the turn's operations with what they leave, and the number of them. -/
theorem channelTurnUpdatesItsChannelOnly : Obligations.ChannelTurnUpdatesItsChannelOnly := by
  intro c s a m e x ha hp hc hamp hm hm1 he he1 hx
  subst hamp hm he hx
  obtain ⟨cs, hcs, hmore, hlast⟩ := exists_turns_after c
  obtain ⟨t, ht, hphase, hch, hbank, hgate, htrace, hamps, hcfg, hsck⟩ := performs_turn hcs ha hp hc he1 hm1
  have hlen : (turnOps c s).length = if turnSample c s = .timeout then 6 else 31 + (s.cfg.extra.get c).toNat := by
    rw [turnOps, chanOps_length]
    by_cases hx : turnSample c s = .timeout <;> simp [hx]
  have hrun := ht.run
  have hperformed := ht.performed
  rw [hlen] at hrun hperformed
  rw [turnEvents, ← List.append_assoc, ← List.append_assoc] at htrace
  rw [turnEntry_eq hm1] at htrace hbank hgate
  exact ⟨t, hrun, hperformed, hbank, hgate, htrace, hamps, hcfg, ht.agenda ha, hsck,
    fun h => (hmore h).imp hphase.trans fun hnext => hc ▸ hch.trans hnext, fun h => (hlast h).imp hphase.trans hch.trans⟩

/-! ### The turns one after the other -/

section
variable {c : Chan} {cs : List Chan} {s t : State}

theorem turnOps_congr (hamp : t.amps.get c = s.amps.get c) (hcfg : t.cfg = s.cfg) : turnOps c t = turnOps c s := by
  have hx : turnSample c t = turnSample c s := by rw [turnSample, turnSample, hamp, hcfg]
  rw [turnOps, turnOps, hx, hcfg]

theorem gateEvents_reads (l : LineId) (b : Level) (n : Nat) : gateEvents (List.replicate n (.lineRead l b)) = [] := by
  simp [gateEvents]

theorem gateEvents_bitEvents (c : Chan) (a : Amp) (n : Nat) (cfg : CfgRegs) :
    gateEvents (bitEvents c a n cfg) = [] := by
  induction n generalizing a with
  | zero => rfl
  | succ n ih =>
    rw [bitEvents_cons, gateEvents_append, ih]
    rfl

theorem gateEvents_pulseEvents (n : Nat) (cfg : CfgRegs) : gateEvents (pulseEvents n cfg) = [] := by
  induction n with
  | zero => rfl
  | succ n ih =>
    rw [pulseEvents_succ, gateEvents_append, ih]
    rfl

/-- An acquisition sets no gate. -/
theorem gateEvents_acqTrace (c : Chan) (cfg : CfgRegs) (a : Amp) (m : Nat) : gateEvents (acqTrace c cfg a m) = [] := by
  cases hlow : a.firstLow c m with
  | some j =>
    simp only [acqTrace_ready cfg hlow, gateEvents_append, gateEvents_reads, gateEvents_bitEvents, gateEvents_pulseEvents]
    rfl
  | none =>
    simp only [acqTrace_timeout cfg hlow, gateEvents_append, gateEvents_reads]
    rfl

theorem gateEvents_turnEvents (c : Chan) (s : State) : gateEvents (turnEvents c s) = [(c, (turnEntry c s).step)] := by
  rw [turnEvents, gateEvents_append, gateEvents_append, gateEvents_acqTrace]
  split <;> rfl

/-- The turn of channel `c` serves that channel. -/
theorem TurnEnded.served (h : TurnEnded c cs s t) : Served [c] s t where
  served := List.forall_mem_singleton.2 (by simp [h.bank, h.gate])
  unserved := fun d hd => by
    have hdc := mt List.mem_singleton.2 hd
    simp [h.bank, h.gate, hdc, h.amps d hdc]
  cfg := h.cfg

/-- The worker gives the channels of `cs` their turns and rests, with one gate set in each. -/
theorem performs_turns (hcs : cs <:+ turnOrder) (ha : s.agenda = []) (hp : s.phase = turnPhase cs)
    (hc : s.ch = turnCh cs) (hsck : cs = [] → s.sck = false) (he : ∀ c, 1 ≤ (s.cfg.extra.get c).toNat)
    (hm : ∀ c, 1 ≤ s.cfg.maxPolls.get c) :
    ∃ t, Performs (cs.flatMap (turnOps · s)) s t ∧ t.phase = .susp ∧ t.ch = 0 ∧ t.sck = false ∧ Served cs s t
      ∧ gateEvents t.trace = gateEvents s.trace ++ cs.map fun c => (c, (turnEntry c s).step) := by
  induction cs generalizing s with
  | nil => exact ⟨s, .nil s, hp, hc, hsck rfl, .nil s, (List.append_nil _).symm⟩
  | cons c cs ih =>
    obtain ⟨t, ht, hend⟩ := performs_turn hcs ha hp hc (he c) (hm c)
    obtain ⟨u, hu, hup, huc, husck, hserved, hgates⟩ := ih ((List.suffix_cons c cs).trans hcs) (ht.agenda ha)
      hend.phase hend.ch (fun _ => hend.sck) (hend.cfg ▸ he) (hend.cfg ▸ hm)
    have hc : c ∉ cs := (List.nodup_cons.1 (hcs.sublist.nodup (by decide))).1
    have hother : ∀ d ∈ cs, d ≠ c := fun d hd hdc => hc (hdc ▸ hd)
    have hops : cs.flatMap (turnOps · t) = cs.flatMap (turnOps · s) :=
      List.flatMap_congr fun d hd => turnOps_congr (hend.amps d (hother d hd)) hend.cfg
    have hentries : (cs.map fun d => (d, (turnEntry d t).step)) = cs.map fun d => (d, (turnEntry d s).step) :=
      List.map_congr_left fun d hd => by
        have hdc := hother d hd
        rw [turnEntry_congr (by simp [hend.bank, hdc]) (hend.amps d hdc) hend.cfg]
    rw [hops] at hu
    refine ⟨u, ht.append hu, hup, huc, husck, hend.served.cons hc hserved, ?_⟩
    rw [hgates, hentries, hend.trace, gateEvents_append, gateEvents_turnEvents, List.append_assoc]
    rfl

/-- A turn takes 6 operations on a Timeout, up to 34 on a Value (43_scheduler.md R202). -/
theorem turnOps_length (c : Chan) (s : State) : 6 ≤ (turnOps c s).length ∧ (turnOps c s).length ≤ 34 := by
  have := (s.cfg.extra.get c).isLt
  rw [turnOps, chanOps_length]
  split <;> omega

/-- So many for each of the channels of `cs`. -/
theorem turns_length (cs : List Chan) (s : State) :
    6 * cs.length ≤ (cs.flatMap (turnOps · s)).length ∧ (cs.flatMap (turnOps · s)).length ≤ 34 * cs.length := by
  induction cs with
  | nil => exact ⟨Nat.le_refl 0, Nat.le_refl 0⟩
  | cons c cs ih =>
    have := turnOps_length c s
    rw [List.flatMap_cons, List.length_append, List.length_cons]
    omega

end

/-- Settles O48: the four turns in order, channel by channel as the cycle rule gives them. -/
theorem cycleIsAFunctionOfBankConfigAndLevels : Obligations.CycleIsAFunctionOfBankConfigAndLevels := by
  intro s x ha hp hc he hm hx
  have he' : ∀ c, 1 ≤ (s.cfg.extra.get c).toNat := fun c =>
    Nat.pos_of_ne_zero fun h0 => he c (BitVec.eq_of_toNat_eq h0)
  obtain ⟨t, ht, htp, htc, hsck, hserved, hgates⟩ := performs_turns List.suffix_rfl ha hp hc nofun he' hm
  have hentry : ∀ c, turnEntry c s = (s.bank.get c).afterCycle s.cfg.threshold (x c) := fun c => by
    rw [turnEntry_eq (hm c), hx, turnSample]
  have hturn : ∀ c, t.bank.get c = turnEntry c s ∧ t.gate.get c = (turnEntry c s).step := fun c =>
    hserved.served c (by cases c <;> decide)
  have hops : turnOrder.flatMap (turnOps · s) = cycleOps
      ⟨decide (x .c1 ≠ .timeout), decide (x .c2 ≠ .timeout), decide (x .c3 ≠ .timeout), decide (x .c4 ≠ .timeout)⟩
      (s.cfg.extra.map BitVec.toNat) := by
    simp only [turnOrder, List.flatMap_cons, List.flatMap_nil, List.append_nil, hx, cycleOps, List.append_assoc]
    rfl
  simp only [hentry] at hgates hturn
  obtain ⟨hleast, hmost⟩ := turns_length turnOrder s
  exact ⟨_, t, hleast, hmost, ht.run, htp, htc, hsck, hserved.cfg, ht.agenda ha, fun c => (hturn c).1,
    fun c => (hturn c).2, hgates, hops ▸ ht.performed⟩

end Sys2Proof.Machine
end

section
/-! Whose move a step is, and the operation it performs (00_scope.md R15, R16, 60_exceptions.md R230, R231). -/

namespace Sys2Proof.Machine

/-- The worker's operations are those with an operation code of at most 9 (30_encoding.md R104). -/
theorem agent_eq_worker_iff (i : Instr) : i.agent = .worker ↔ opcOf (encode i) ≤ 9 := by
  cases i <;> simp [Instr.agent, encode]

theorem Phase.code_le (p : Phase) : p.code ≤ 9 := by cases p <;> decide

section
variable {s : State} {i : Instr} {w : OpWord} {m : Move} {rest : List Move}

/-- In every state, also an unreachable one, the worker's word names one of the worker's own operations. -/
theorem agent_of_decode_workerWord (hd : decode s.fusionPresent (workerWord s) = .ok i) : i.agent = .worker := by
  obtain ⟨hword, _⟩ := encode_of_decode hd
  rw [agent_eq_worker_iff, hword, workerWord, opcOf_opWordOf]
  exact s.phase.code_le

theorem nextMove_cons (ha : s.agenda = m :: rest) : nextMove s = m := by
  simp [nextMove, ha]

theorem popMove_cons (ha : s.agenda = m :: rest) : popMove s = { s with agenda := rest } := by
  simp [popMove, ha]

/-- In its move the worker performs the operation its word names. -/
theorem step_of_decode_workerWord (hn : nextMove s = .worker) (hd : decode s.fusionPresent (workerWord s) = .ok i) :
    step s = exec i (popMove s) :=
  (step_of_worker hn).trans (perform_worker (s := popMove s) _ hd (agent_of_decode_workerWord hd))

/-- A word asked for from outside is performed as an outside agent's. -/
theorem step_of_outside (ha : s.agenda = .outside w :: rest) :
    step s = perform false w { s with agenda := rest } := by
  simp [step, nextMove_cons ha, popMove_cons ha, wordOf]

theorem perform_outside (hd : decode s.fusionPresent w = .ok i) (hi : i.agent ≠ .worker) :
    perform false w s = exec i s := by
  simp [perform, hd, mayPerform, hi]

/-- An outside agent has no operation of the worker (60_exceptions.md R231). -/
theorem perform_outside_refused (hd : decode s.fusionPresent w = .ok i) (hi : i.agent = .worker) :
    perform false w s = .refused (.notAnOutsideOperation w) := by
  simp [perform, hd, mayPerform, hi]

theorem step_of_pulseEnd (ha : s.agenda = .pulseEnd :: rest) :
    step s = .next { s with agenda := rest, ovr := false } := by
  simp [step, nextMove_cons ha, popMove_cons ha, wordOf, endPulse]

end

/-- Settles O5: the four kinds of move, each by the law of its step. -/
theorem stepPerformsTheDecodedOperation : Obligations.StepPerformsTheDecodedOperation := by
  refine ⟨fun s i ha hd => ?nobody, fun s rest i ha hd => ?worker, fun s w rest i ha hd => ?outside,
    fun _ _ => step_of_pulseEnd⟩
  case nobody => rw [step_of_decode_workerWord (nextMove_nil ha) hd, popMove_nil ha]
  case worker => rw [step_of_decode_workerWord (nextMove_cons ha) hd, popMove_cons ha]
  case outside =>
    rw [step_of_outside ha]
    exact ⟨perform_outside (s := { s with agenda := rest }) hd,
      perform_outside_refused (s := { s with agenda := rest }) hd⟩

end Sys2Proof.Machine
end

section
/-! The conditions: in which operation each is raised, and what it finds and leaves (60_exceptions.md R215 to R218). -/

namespace Sys2Proof.Machine

section
variable {s t : State} {k : Condition} {es : List Event}

/-- A `WRDY c` that raised a condition had no low poll within its bound, and it leaves the timeout recorded
(60_exceptions.md R216). -/
theorem wrdy_of_raised {c : Chan} (h : exec (.wrdy c) s = .next t) (ht : t.trace = s.trace ++ es)
    (hk : Event.raised k ∈ es) :
    t.rdy = false ∧ t.smpTo = true ∧ ∀ j, j < s.cfg.maxPolls.get c → (s.amps.get c).nth c j = true := by
  injection h with h
  rcases wait_cases c (s.amps.get c) (pollBound c s) with ⟨j, hj, hhigh, hlow⟩ | hhigh
  · rw [waitReady_ready hj hhigh hlow] at h
    subst h
    obtain rfl := List.append_cancel_left ((List.append_assoc ..).symm.trans ht)
    simp at hk -- a ready wait records reads only
  · rw [waitReady_timeout hhigh] at h
    subst h
    exact ⟨rfl, rfl, fun j hj => hhigh j (lt_of_lt_of_le hj (le_max_right ..))⟩

/-- An `INIT` that raised a condition was offered an illegal record, and it leaves `CFG_ERR` set (60_exceptions.md
R217). -/
theorem init_of_raised (h : exec .init s = .next t) (ht : t.trace = s.trace ++ es) (hk : Event.raised k ∈ es) :
    t.cfgErr = true ∧ configOk (offered s) = false := by
  have hcases := exec_next_cases h
  simp only [reduceCtorEq, false_and, exists_false, false_or, or_false, true_and] at hcases
  obtain ⟨_, ⟨_, rfl⟩ | ⟨hbad, rfl⟩⟩ := hcases
  · obtain rfl := List.append_cancel_left ht
    simp at hk -- a legal `INIT` records its write and its result only
  · exact ⟨rfl, hbad⟩

end

/-- Settles O44: of the events an operation may append, those of a timed-out `WRDY` and of a rejected `INIT` alone
hold a condition. -/
theorem conditionsAreRaisedAsListed : Obligations.ConditionsAreRaisedAsListed := by
  refine ⟨⟨rfl, fun _ => rfl, rfl, rfl⟩, fun i s t h => ?_⟩
  obtain ⟨es, ht, happ⟩ := exec_appends h
  refine ⟨es, ht, fun k hk => ?_⟩
  cases happ with
  | timeout c j =>
    obtain rfl : k = .deviceNotReady c := by simpa using hk
    exact .inl ⟨c, rfl, rfl, wrdy_of_raised h ht hk⟩
  | configRejected =>
    obtain rfl : k = .configurationError := by simpa using hk
    exact .inr ⟨rfl, rfl, init_of_raised h ht hk⟩
  | nothing | clockLow | ready | bit | extraPulse | gateSet | answered | configLoaded => simp at hk

end Sys2Proof.Machine
end

section
/-! The rest after a ConfigurationError (60_exceptions.md R217). -/

namespace Sys2Proof.Machine

/-- `t` is `s` but for what may still change once the worker rests for good: the stop flags, the override, the moves
asked for and the record. -/
def SameAtRest (s t : State) : Prop :=
  t = { s with
    stopReq := t.stopReq
    stopped := t.stopped
    ovr := t.ovr
    agenda := t.agenda
    trace := t.trace }

section
variable {s t u : State}

theorem SameAtRest.refl (s : State) : SameAtRest s s := rfl

theorem SameAtRest.trans (h : SameAtRest s t) (h' : SameAtRest t u) : SameAtRest s u := by
  unfold SameAtRest at *
  rw [h', h]

/-- The registers that hold at rest. -/
theorem SameAtRest.holds (h : SameAtRest s t) :
    t.cfgErr = s.cfgErr ∧ t.phase = s.phase ∧ t.sched = s.sched ∧ t.sck = s.sck ∧ t.bank = s.bank ∧ t.gate = s.gate
      ∧ t.cfg = s.cfg := by
  unfold SameAtRest at h
  rw [h]
  exact ⟨rfl, rfl, rfl, rfl, rfl, rfl, rfl⟩

/-- Under `CFG_ERR` an `INIT` is refused and a tick is dropped; `SUSP` and the other operations from outside write
nothing but what `SameAtRest` leaves out. -/
theorem exec_sameAtRest {i : Instr} (herr : s.cfgErr = true) (hi : i = .susp ∨ i.agent ≠ .worker)
    (h : exec i s = .next t) : SameAtRest s t := by
  cases i with
  | susp =>
    injection h with h
    subst h
    split <;> rfl
  | init =>
    rw [exec_init_refused (initAllowed_eq_false_iff.2 (.inr (.inl herr)))] at h
    cases h
  | tick =>
    rw [exec_tick_dropped (tickAccepted_eq_false_iff.2 (.inr (.inr (.inl herr))))] at h
    injection h with h
    exact h ▸ rfl
  | rdl | stop =>
    injection h with h
    exact h ▸ rfl
  | amb =>
    obtain ⟨_, rfl⟩ := ite_next_iff.1 h
    rfl
  | clkl | wrdy | shb | gpl | conv | dec | upd | gate | next => exact absurd hi (by simp [Instr.agent])

theorem step_sameAtRest (herr : s.cfgErr = true) (hp : s.phase = .susp) (h : step s = .next t) : SameAtRest s t := by
  have hpop : SameAtRest s (popMove s) := rfl
  rcases step_agent_cases h with ⟨i, hd, he⟩ | ⟨i, ha, he⟩ | rfl
  · have hsusp := (decode_workerWord_plain s).1 hp
    exact hpop.trans (exec_sameAtRest herr (.inl (Except.ok.inj (hd.symm.trans hsusp))) he)
  · exact hpop.trans (exec_sameAtRest herr (.inr ha) he)
  · rfl

theorem run_sameAtRest {n : Nat} (herr : s.cfgErr = true) (hp : s.phase = .susp) (h : run n s = .next t) :
    SameAtRest s t := by
  refine run_keeps (P := SameAtRest s) (fun u v hu huv => ?_) (.refl s) h
  obtain ⟨hu_err, hu_phase, _⟩ := hu.holds
  exact hu.trans (step_sameAtRest (hu_err.trans herr) (hu_phase.trans hp) huv)

end

/-- Settles O51: a run is at rest throughout, so every register named holds; the dropped tick and the answer are those
of the state it ends in. -/
theorem configurationErrorIsForEver : Obligations.ConfigurationErrorIsForEver := by
  intro n s t herr hp h
  obtain ⟨ht_err, ht_phase, hsched, hsck, hbank, hgate, hcfg⟩ := (run_sameAtRest herr hp h).holds
  have herr' : t.cfgErr = true := ht_err.trans herr
  have hbad : ¬ Good t := by simp [Good, herr']
  have hdrop : tickAccepted t = false := tickAccepted_eq_false_iff.2 (.inr (.inr (.inl herr')))
  exact ⟨herr', hbad, ht_phase.trans hp, hsched, hsck, hbank, hgate, hcfg, exec_tick_dropped hdrop,
    fun c => hbank ▸ rfl⟩

end Sys2Proof.Machine
end

section
/-! Which moves complete, and what an operation of an agent other than the worker can do (43_scheduler.md R198,
60_exceptions.md R230, 70_reset_and_hazards.md R264, R272). -/

namespace Sys2Proof.Machine

section
variable {i : Instr} {s t : State}

/-- An operation that the block has completes, `INIT` inside its precondition (43_scheduler.md R188). -/
theorem exec_completes (hwf : WellFormed s.fusionPresent i = true) (hinit : i = .init → initAllowed s = true) :
    ∃ t, exec i s = .next t := by
  cases i with
  | init => exact ⟨_, if_pos (hinit rfl)⟩
  | amb => exact ⟨_, if_pos hwf⟩
  | susp | clkl | wrdy | shb | gpl | conv | dec | upd | gate | next | rdl | tick | stop => exact ⟨_, rfl⟩

/-- Inside a cycle `CH` names a channel (10_state.md R29). -/
theorem Invariant.exists_channel (hi : Invariant s) (hp : s.phase ≠ .susp) : ∃ c : Chan, s.ch = c.code :=
  Chan.exists_code s.ch (mt hi.restsAtZero.2 hp) hi.channelLegal

/-- Under the invariant the worker's word is legal. -/
theorem Invariant.exists_decode_workerWord (hi : Invariant s) : ∃ i, decode s.fusionPresent (workerWord s) = .ok i := by
  rcases eq_or_ne s.phase .susp with hp | hp
  · exact ⟨_, (decode_workerWord_plain s).1 hp⟩
  · obtain ⟨c, hc⟩ := hi.exists_channel hp
    exact ⟨_, decode_workerWord hc⟩

/-- A worker whose word is legal completes its move. -/
theorem worker_step_completes (hn : nextMove s = .worker) (hd : decode s.fusionPresent (workerWord s) = .ok i) :
    ∃ t, step s = .next t := by
  obtain ⟨_, hwf⟩ := encode_of_decode hd
  rw [step_of_decode_workerWord hn hd]
  refine exec_completes (s := popMove s) hwf ?_
  rintro rfl
  exact absurd (agent_of_decode_workerWord hd) (by decide)

/-- Before a first `INIT` a state with the invariant is Idle, so `INIT` is allowed (43_scheduler.md R186). -/
theorem initAllowed_of_first (hi : Invariant s) (hinit : s.inited = false) (herr : s.cfgErr = false) :
    initAllowed s = true := by
  cases hs : s.sched with
  | idle => exact initAllowed_iff.2 ⟨hs, hinit, herr⟩
  | running => exact absurd ((hi.runningInited hs).symm.trans hinit) (by decide)

/-- What an operation of an agent other than the worker can do: raise the request or the override and append to the
record, be the one `INIT`, or be the tick that starts a cycle. -/
theorem exec_outside_cases (ha : i.agent ≠ .worker) (h : exec i s = .next t) :
    t = { s with stopReq := t.stopReq, ovr := t.ovr, trace := t.trace }
      ∨ (i = .init
        ∧ t = { s with cfg := t.cfg, inited := t.inited, cfgErr := t.cfgErr, sck := t.sck, trace := t.trace })
      ∨ (i = .tick ∧ s.phase = .susp ∧ t = { s with sched := t.sched, ch := t.ch, phase := t.phase }) := by
  cases i with
  | rdl | stop =>
    injection h with h
    exact .inl (h ▸ rfl)
  | amb =>
    obtain ⟨_, rfl⟩ := ite_next_iff.1 h
    exact .inl rfl
  | init =>
    obtain ⟨_, h⟩ := ite_next_iff.1 h
    refine .inr (.inl ⟨rfl, ?_⟩)
    split at h
    · exact h ▸ rfl
    · exact h ▸ rfl
  | tick =>
    cases hok : tickAccepted s with
    | true =>
      rw [exec_tick_accepted hok] at h
      injection h with h
      exact .inr (.inr ⟨rfl, (tickAccepted_iff.1 hok).1, h ▸ rfl⟩)
    | false =>
      rw [exec_tick_dropped hok] at h
      injection h with h
      exact .inl (h ▸ rfl)
  | susp | clkl | wrdy | shb | gpl | conv | dec | upd | gate | next => exact absurd rfl ha

end

/-- Settles O36: the worker's word is legal under the invariant, and an operation that the block has completes. -/
theorem theWorkerAlwaysMoves : Obligations.TheWorkerAlwaysMoves := by
  intro s hi
  obtain ⟨_, hworker⟩ := hi.exists_decode_workerWord
  refine ⟨fun ha => worker_step_completes (nextMove_nil ha) hworker,
    fun _ ha => worker_step_completes (nextMove_cons ha) hworker, fun w rest i ha hd hi' hfirst => ?_⟩
  obtain ⟨_, hwf⟩ := encode_of_decode hd
  rw [step_of_outside ha, perform_outside (s := { s with agenda := rest }) hd hi']
  refine exec_completes (s := { s with agenda := rest }) hwf fun he => ?_
  obtain ⟨hinit, herr⟩ := hfirst he
  exact initAllowed_of_first (s := s) hi hinit herr

/-- Settles O39: none of the three things an outside operation can do writes these registers, and the tick that moves
the sequencer does so at `SUSP`. -/
theorem theWorkerIsTheSoleWriter : Obligations.TheWorkerIsTheSoleWriter := by
  intro i s t ha h
  rcases exec_outside_cases ha h with ht | ⟨_, ht⟩ | ⟨rfl, hp, ht⟩ <;> rw [ht]
  · simp
  · simp
  · simp [hp]

end Sys2Proof.Machine
end

section
/-! Runs for ever: every moment is reached, under fairness every cycle ends and ticks recur, and without ticks the block
rests (70_reset_and_hazards.md R272). -/

namespace Sys2Proof.Machine

/-- 70_reset_and_hazards.md R272 (c): a `WRDY c` reads its line at least once and at most `MAX_POLLS[c]` times. -/
theorem wrdy_reads_within_bound {c : Chan} {s : State} (hm : 1 ≤ s.cfg.maxPolls.get c) :
    ∃ k t, 1 ≤ k ∧ k ≤ s.cfg.maxPolls.get c ∧ exec (.wrdy c) s = .next t
      ∧ t.amps = s.amps.set c ((s.amps.get c).after k) := by
  rcases waitReady_cases c s with ⟨j, hj, e⟩ | e <;> rw [pollBound_eq hm] at *
  · exact ⟨j + 1, _, Nat.succ_pos j, hj, rfl, by rw [e]⟩
  · exact ⟨_, _, hm, le_rfl, rfl, by rw [e]⟩

section
variable {s t : State}

/-- A rightful move, where the worker's word is legal: the worker's operation, one of an outside agent other than
`INIT`, or the end of the override pulse. -/
theorem rightful_step_cases {i : Instr} (hd : decode s.fusionPresent (workerWord s) = .ok i)
    (hm : Rightful s.fusionPresent (nextMove s)) :
    (nextMove s = .worker ∧ step s = exec i (popMove s))
      ∨ (∃ j, nextMove s = .outside (encode j) ∧ WellFormed s.fusionPresent j = true ∧ j.agent ≠ .worker ∧ j ≠ .init
        ∧ step s = exec j (popMove s))
      ∨ step s = .next (endPulse (popMove s)) := by
  cases hn : nextMove s with
  | worker => exact .inl ⟨rfl, step_of_decode_workerWord hn hd⟩
  | outside w =>
    rw [hn] at hm
    obtain ⟨j, hj, ha, hne⟩ := hm
    obtain ⟨rfl, hwf⟩ := encode_of_decode hj
    refine .inr (.inl ⟨j, rfl, hwf, ha, hne, ?_⟩)
    simp only [step, hn, wordOf]
    exact perform_outside (s := popMove s) hj ha
  | pulseEnd => exact .inr (.inr (by simp only [step, hn, wordOf]))

/-- A rightful move completes. -/
theorem rightful_step_completes {i : Instr} (hd : decode s.fusionPresent (workerWord s) = .ok i)
    (hm : Rightful s.fusionPresent (nextMove s)) : ∃ t, step s = .next t := by
  rcases rightful_step_cases hd hm with ⟨hn, _⟩ | ⟨j, _, hwf, _, hne, hstep⟩ | hstep
  · exact worker_step_completes hn hd
  · rw [hstep]
    exact exec_completes (s := popMove s) hwf fun he => absurd he hne
  · exact ⟨_, hstep⟩

/-- `SUSP` changes nothing that holds at rest (43_scheduler.md R194, R197). -/
theorem exec_susp_sameAtRest (h : exec .susp s = .next t) : SameAtRest s t := by
  cases hdue : stopDue s with
  | true => exact Host.Outcome.next.inj ((exec_susp_stop hdue).symm.trans h) ▸ rfl
  | false => exact Host.Outcome.next.inj ((exec_susp_hold hdue).symm.trans h) ▸ rfl

/-- At rest a rightful move that is no tick leaves the block at rest. -/
theorem rightful_step_sameAtRest (hp : s.phase = .susp) (hm : Rightful s.fusionPresent (nextMove s))
    (htick : nextMove s ≠ .outside (encode .tick)) (h : step s = .next t) : SameAtRest s t := by
  have hpop : SameAtRest s (popMove s) := rfl
  have hsusp := (decode_workerWord_plain s).1 hp
  rcases rightful_step_cases hsusp hm with ⟨_, hstep⟩ | ⟨j, hn, _, ha, hinit, hstep⟩ | hstep <;> rw [hstep] at h
  · exact hpop.trans (exec_susp_sameAtRest h)
  · rcases exec_outside_cases ha h with ht | ⟨he, _⟩ | ⟨rfl, _⟩
    · exact hpop.trans (by rw [SameAtRest, ht])
    · exact absurd he hinit
    · exact absurd hn htick
  · injection h with h
    exact h ▸ rfl

/-! ### The steps left in a cycle -/

/-- Inside a cycle no step, whoever's it is, leaves more steps for the worker to make. -/
theorem stepsLeft_le_of_step (hi : Invariant s) (hp : s.phase ≠ .susp) (h : step s = .next t) :
    stepsLeft t ≤ stepsLeft s := by
  have hpop : Invariant (popMove s) := { hi with }
  rcases step_agent_cases h with ⟨i, hd, he⟩ | ⟨i, ha, he⟩ | rfl
  · obtain ⟨c, hc⟩ := hi.exists_channel hp
    obtain rfl : i = opAt s.phase c := Except.ok.inj (hd.symm.trans (decode_workerWord hc))
    exact (exec_worker_stepsLeft hpop hc hp he).le
  · rw [outsideMovesDoNotDisturbACycle i (popMove s) t hpop hp ha he]
    exact le_rfl
  · exact le_rfl

/-- Inside a cycle a move of the worker leaves fewer. -/
theorem stepsLeft_lt_of_worker_step (hi : Invariant s) (hp : s.phase ≠ .susp) (hn : nextMove s = .worker)
    (h : step s = .next t) : stepsLeft t < stepsLeft s := by
  obtain ⟨c, hc⟩ := hi.exists_channel hp
  rw [step_of_decode_workerWord hn (decode_workerWord hc)] at h
  exact exec_worker_stepsLeft (s := popMove s) { hi with } hc hp h

end

/-! ### The moments of a run for ever -/

section
variable {e : Nat → Move} {s u v : State} {n m : Nat}

/-- When every move asked for completes and keeps `P`, every moment is reached, with `P`. -/
theorem runUnder_reaches {M : Move → Prop} {P : State → Prop} (ha : AllMoves M e s) (hs : P s)
    (hstep : ∀ m u, P u → M (nextMove (askMove m u)) → ∃ v, step (askMove m u) = .next v ∧ P v) (n : Nat) :
    ∃ u, runUnder e n s = .next u ∧ P u := by
  induction n with
  | zero => exact ⟨s, rfl, hs⟩
  | succ n ih =>
    obtain ⟨u, hu, hP⟩ := ih
    rw [runUnder_succ hu]
    exact hstep (e n) u hP (nextMove_askMove n (runUnder_allMoves ha hu))

theorem askMove_invariant (m : Move) (hi : Invariant s) : Invariant (askMove m s) := { hi with }

theorem runUnder_invariant (hi : Invariant s) (h : runUnder e n s = .next u) : Invariant u :=
  runUnder_keeps (P := Invariant) (fun k _ v hu => everyStepKeepsTheInvariant _ v (askMove_invariant (e k) hu))
    (Nat.zero_le n) (runUnder_zero e s) hi h

theorem runUnder_inited (hinit : s.inited = true) (h : runUnder e n s = .next u) : u.inited = true :=
  runUnder_keeps (P := fun u => u.inited = true)
    (fun _ _ _ hu hs => (step_keeps_config (s := askMove _ _) hu hs).2) (Nat.zero_le n) (runUnder_zero e s) hinit h

/-- A block with the invariant whose agents make only moves they have never stops. -/
theorem runUnder_never_stops (hi : Invariant s) (ha : AllMoves (Rightful s.fusionPresent) e s) (n : Nat) :
    ∃ u, runUnder e n s = .next u := by
  suffices h : ∃ u, runUnder e n s = .next u ∧ Invariant u ∧ u.fusionPresent = s.fusionPresent from
    h.imp fun _ => And.left
  refine runUnder_reaches ha ⟨hi, rfl⟩ (fun m u ⟨hiu, hf⟩ hm => ?_) n
  have hask := askMove_invariant m hiu
  obtain ⟨_, hd⟩ := hask.exists_decode_workerWord
  obtain ⟨v, hv⟩ := rightful_step_completes hd (by rwa [askMove_fusionPresent, hf])
  exact ⟨v, hv, everyStepKeepsTheInvariant _ v hask hv, (step_fusionPresent hv).trans hf⟩

/-- From moment `n` to moment `m` the block either comes to rest or leaves the worker no more steps to make. -/
theorem susp_or_stepsLeft_le (hi : Invariant s) (hnm : n ≤ m) (hu : runUnder e n s = .next u)
    (hv : runUnder e m s = .next v) :
    (∃ k w, n ≤ k ∧ runUnder e k s = .next w ∧ w.phase = .susp) ∨ stepsLeft v ≤ stepsLeft u := by
  induction m, hnm using Nat.le_induction generalizing v with
  | base =>
    rw [hu] at hv
    injection hv with hv
    exact .inr (hv ▸ le_rfl)
  | succ m hnm ih =>
    obtain ⟨w, hw, hstep⟩ := runUnder_succ_cases hv
    by_cases hp : w.phase = .susp
    · exact .inl ⟨m, w, hnm, hw, hp⟩
    · have hask := askMove_invariant (e m) (runUnder_invariant hi hw)
      have hle : stepsLeft v ≤ stepsLeft w := stepsLeft_le_of_step (s := askMove (e m) w) hask hp hstep
      exact (ih hw).imp_right hle.trans

/-- When the worker in a cycle always moves again, the cycle ends: each of its moves leaves fewer steps to make. -/
theorem exists_susp_after (hi : Invariant s) (hreach : ∀ n, ∃ u, runUnder e n s = .next u) (hfair : WorkerFair e s)
    (hu : runUnder e n s = .next u) : ∃ m v, n ≤ m ∧ runUnder e m s = .next v ∧ v.phase = .susp := by
  induction hk : stepsLeft u using Nat.strong_induction_on generalizing n u with
  | _ k ih =>
    by_cases hp : u.phase = .susp
    · exact ⟨n, u, le_rfl, hu, hp⟩
    obtain ⟨m, v, hnm, hv, hmove⟩ := hfair n u hu hp
    rcases susp_or_stepsLeft_le hi hnm hu hv with hrest | hle
    · exact hrest
    by_cases hpv : v.phase = .susp
    · exact ⟨m, v, hnm, hv, hpv⟩
    obtain ⟨w, hw⟩ := hreach (m + 1)
    have hstep : step (askMove (e m) v) = .next w := (runUnder_succ hv).symm.trans hw
    have hask := askMove_invariant (e m) (runUnder_invariant hi hv)
    have hlt : stepsLeft w < stepsLeft v := stepsLeft_lt_of_worker_step (s := askMove (e m) v) hask hpv hmove hstep
    obtain ⟨k', x, hmk, hx, hpx⟩ := ih (stepsLeft w) (hk ▸ hlt.trans_le hle) hw rfl
    exact ⟨k', x, by omega, hx, hpx⟩

/-- At rest, once configured, the next tick is accepted unless a stop has been requested (43_scheduler.md R190). -/
theorem tickAccepted_of_rest (hi : Invariant s) (hinit : s.inited = true) (hp : s.phase = .susp)
    (hreq : s.stopReq = false) : tickAccepted s = true :=
  tickAccepted_iff.2 ⟨hp, hinit, hi.oneInit hinit,
    Bool.eq_false_iff.2 fun hs => absurd ((hi.stoppedAtRest hs).1.symm.trans hreq) (by decide), hreq⟩

/-- Where no tick comes, every moment is reached, and at rest. -/
theorem runUnder_rests (hp : s.phase = .susp)
    (ha : AllMoves (fun m => Rightful s.fusionPresent m ∧ m ≠ .outside (encode .tick)) e s) (n : Nat) :
    ∃ u, runUnder e n s = .next u ∧ SameAtRest s u := by
  refine runUnder_reaches ha (.refl s) (fun m u hrest ⟨hright, htick⟩ => ?_) n
  have hask : SameAtRest s (askMove m u) := hrest.trans rfl
  have hf : (askMove m u).fusionPresent = s.fusionPresent := by rw [hask]
  obtain ⟨_, hphase, _⟩ := hask.holds
  rw [← hf] at hright
  obtain ⟨v, hv⟩ := rightful_step_completes ((decode_workerWord_plain _).1 (hphase.trans hp)) hright
  exact ⟨v, hv, hask.trans (rightful_step_sameAtRest (hphase.trans hp) hright htick hv)⟩

end

/-- Settles O52: `stepsLeft` falls with each move of the worker, so a cycle ends; at its end the tick source's fairness
applies unless a stop has been requested; and without ticks each moment is at rest. -/
theorem fairnessMakesCyclesRecurForEver : Obligations.FairnessMakesCyclesRecurForEver := by
  refine ⟨fun c s => wrdy_reads_within_bound, fun e s hi hinit ha => ?configured, fun e s _ hp hc ha htick n => ?rest⟩
  case configured =>
    have hreach := runUnder_never_stops hi ha
    have hends : WorkerFair e s → ∀ n, ∃ m v, n ≤ m ∧ runUnder e m s = .next v ∧ v.phase = .susp := fun hfair n => by
      obtain ⟨u, hu⟩ := hreach n
      exact exists_susp_after hi hreach hfair hu
    refine ⟨hreach, hends, fun hfair n => ?_⟩
    obtain ⟨m, v, hnm, hv, hp⟩ := hends hfair.worker n
    cases hreq : v.stopReq with
    | true => exact ⟨m, hnm, .inr ⟨v, hv, hreq⟩⟩
    | false =>
      have hok := tickAccepted_of_rest (runUnder_invariant hi hv) (runUnder_inited hinit hv) hp hreq
      obtain ⟨k, hmk, hk⟩ := hfair.tick m v hv hok
      exact ⟨k, hnm.trans hmk, .inl hk⟩
  case rest =>
    obtain ⟨u, hu, hrest⟩ := runUnder_rests hp
      ⟨fun m hm => ⟨ha.1 m hm, htick.1 m hm⟩, fun k => ⟨ha.2 k, htick.2 k⟩⟩ n
    obtain ⟨_, hphase, _, hsck, hbank, hgate, _⟩ := hrest.holds
    have hch : u.ch = s.ch := by rw [hrest]
    exact ⟨u, hu, hphase.trans hp, hch.trans hc, hsck, hbank, hgate⟩

end Sys2Proof.Machine
end

section
/-! The op word placed where the next step performs it: the position and the word of each of the worker's operations
agree (log 5; 10_state.md R30, 30_encoding.md R104). -/

namespace Sys2Proof.Machine

section
variable {s : State} {i : Instr} {p : Phase} {oc : Option Chan}

/-- The operations with a position are the worker's. -/
theorem positionOf_eq_none_iff : positionOf i = none ↔ i.agent ≠ .worker := by
  cases i <;> simp [positionOf, Instr.agent]

/-- A word put for one of the worker's operations goes to the worker's position. -/
theorem withFetchWord_of_position (hwf : WellFormed s.fusionPresent i = true) (hp : positionOf i = some (p, oc)) :
    s.withFetchWord 8 (encode i).toNat = placeWorker p oc s := by
  simp [State.withFetchWord, placeWord, decode_encode hwf, hp]

/-- A word put for an outside agent's operation goes to the head of the agenda. -/
theorem withFetchWord_of_no_position (hwf : WellFormed s.fusionPresent i = true) (hp : positionOf i = none) :
    s.withFetchWord 8 (encode i).toNat = { s with agenda := .outside (encode i) :: s.agenda } := by
  simp [State.withFetchWord, placeWord, decode_encode hwf, hp]

/-- The position of an operation, with the channel placed there, names that operation. -/
theorem workerWord_placeWorker (hp : positionOf i = some (p, oc)) : workerWord (placeWorker p oc s) = encode i := by
  cases i with
  | susp | clkl | wrdy c | shb c | gpl | conv | dec c | upd c | gate c | next => cases hp; rfl
  | rdl c | init | tick | stop | amb => cases hp

/-- The worker, placed at an operation's position, performs it. -/
theorem step_placeWorker (hwf : WellFormed s.fusionPresent i = true) (hp : positionOf i = some (p, oc)) :
    step (placeWorker p oc s) = exec i { s with phase := p, ch := channelFor p oc s.ch } :=
  step_of_decode_workerWord (s := placeWorker p oc s) rfl (decode_ok_iff.2 ⟨(workerWord_placeWorker hp).symm, hwf⟩)

end

/-- Settles O6: the worker's operations by their position, the others at the head of the agenda. -/
theorem placedWordIsPerformedNext : Obligations.PlacedWordIsPerformedNext := by
  intro s i hwf
  cases hp : positionOf i with
  | some position =>
    obtain ⟨p, oc⟩ := position
    have hworker : i.agent = .worker := by_contra fun hi => by simp [positionOf_eq_none_iff.2 hi] at hp
    refine ⟨{ s with phase := p, ch := channelFor p oc s.ch }, ?_, rfl, fun _ => workerWord_placeWorker (s := s) hp,
      fun hi => absurd hworker hi⟩
    rw [withFetchWord_of_position hwf hp, step_placeWorker hwf hp]
  | none =>
    have hout := positionOf_eq_none_iff.1 hp
    refine ⟨s, ?_, rfl, fun hi => absurd hi hout, fun _ => rfl⟩
    rw [withFetchWord_of_no_position hwf hp, step_of_outside rfl]
    exact perform_outside (decode_encode hwf) hout

end Sys2Proof.Machine
end

section
/-! The acquisition operations outside what the rules ask of them: `WRDY` under a bound of 0 (log 11), `SHB`, `GPL` and
`CONV` in any state (log 8, log 10). -/

namespace Sys2Proof.Machine

/-- A bound of 0 permits one poll: `WRDY` reads before it counts. -/
theorem pollBound_zero {c : Chan} {s : State} (h : s.cfg.maxPolls.get c = 0) : pollBound c s = 1 := by
  simp [pollBound, h]

/-- Settles O10: the one poll reads low or high. -/
theorem wrdyPollsOnceUnderAZeroBound : Obligations.WrdyPollsOnceUnderAZeroBound := by
  intro c s hm
  have hb := pollBound_zero hm
  refine ⟨waitReady c s, rfl, ?_⟩
  cases hpoll : (s.amps.get c).nth c 0 with
  | false =>
    rw [waitReady_ready (j := 0) (by omega) (fun i hi => absurd hi (Nat.not_lt_zero i)) hpoll]
    simp
  | true =>
    have hhigh : ∀ i, i < pollBound c s → (s.amps.get c).nth c i = true := fun i hi => by
      obtain rfl : i = 0 := by omega
      exact hpoll
    rw [waitReady_timeout hhigh, hb]
    simp

/-- One bit shifted into any word: the top bit falls out. -/
theorem shiftIn_toNat_mod (u : Word24) (b : Level) : (shiftIn u b).toNat = (2 * u.toNat + b.toNat) % 2 ^ 24 := by
  have hshift : (u <<< 1).toNat = 2 ^ 1 * (u.toNat % 2 ^ 23) := by
    rw [BitVec.toNat_shiftLeft, Nat.shiftLeft_eq]
    omega
  have hbit : ((BitVec.ofBool b).setWidth 24).toNat = b.toNat := by cases b <;> rfl
  have hlt : b.toNat < 2 ^ 1 := Bool.toNat_lt b
  rw [shiftIn, BitVec.toNat_or, hshift, hbit, ← Nat.two_pow_add_eq_or_of_lt hlt]
  omega

/-- The bit counter turns to 24 from 23 only, also where it wraps. -/
theorem bitCnt_succ_eq_24_iff {b : BitVec 5} : b + 1 = 24 ↔ b.toNat = 23 := by
  bv_omega

/-- `GPL` with whatever count `CH` selects, also where it names no channel. -/
theorem exec_gpl_extraAt (s : State) : exec .gpl s = .next { s with
    sck := false
    gCnt := s.gCnt + 1
    phase := if s.gCnt + 1 = extraAt s then .conv else .gpl
    trace := s.trace ++ [.lineWrite s.cfg.clkLine true, .lineWrite s.cfg.clkLine false] } :=
  congrArg _ (countExtra_pulse s)

/-- Settles O15: `SHB` by the shift with truncation and the wrapping counter, `GPL` by its two next positions, `CONV` by
the value of the conversion. -/
theorem frameOperationsRunInEveryState : Obligations.FrameOperationsRunInEveryState := by
  refine ⟨fun c s => ⟨_, exec_shb c s, shiftIn_toNat_mod .., BitVec.toNat_add .., rfl, ?phase⟩,
    fun s => ⟨_, exec_gpl_extraAt s, BitVec.toNat_add .., rfl, ite_eq_or_eq .., rfl⟩,
    fun s => ⟨_, rfl, conv24_toInt s.acc, rfl, rfl⟩⟩
  case phase => simp [← bitCnt_succ_eq_24_iff]

end Sys2Proof.Machine
end

section
/-! The boundaries of the channel state: the answer of `RDL` (42_channel_state.md R175) and the override of `AMB`
(R178). -/

namespace Sys2Proof.Machine

/-- The op words of `RDL` whose `CHF` names no channel are illegal (30_encoding.md R105). -/
theorem exists_reject_of_rdl_without_channel (fusion : Bool) {w : OpWord}
    (hw : w ∈ [0xA0#8, 0xA5#8, 0xA6#8, 0xA7#8]) :
    ∃ r, decode fusion w = .error r := by
  have hfields : ∀ w ∈ [0xA0#8, 0xA5#8, 0xA6#8, 0xA7#8],
      w.toNat / 16 ∈ channelOpcodes ∧ (5 ≤ w.toNat % 8 ∨ w.toNat % 8 = 0) := by decide
  obtain ⟨hopc, hchf⟩ := hfields w hw
  rcases hchf with h | h
  · exact decode_error_iff.2 (.inr (.inr (.inl ⟨hopc, h⟩))) -- `CHF` in 5..7
  · exact decode_error_iff.2 (.inr (.inr (.inr (.inl ⟨hopc, h⟩)))) -- `CHF = 0`

/-- Settles O23: the answer is the entry's status; its weight keeps its value in 32 bits. -/
theorem rdlAnswersTheSnapshot : Obligations.RdlAnswersTheSnapshot := by
  refine ⟨fun c s => ⟨by cases c <;> decide, statusOf (s.bank.get c), rfl, sext32_toInt .., rfl, rfl⟩,
    fun s rest w hw ha => ?_⟩
  obtain ⟨r, hr⟩ := exists_reject_of_rdl_without_channel s.fusionPresent hw
  exact ⟨r, step_of_illegal_word ha hr⟩

/-- `AMB` where it exists. -/
theorem exec_amb_present {s : State} (h : s.fusionPresent = true) : exec .amb s = .next { s with ovr := true } := by
  simp [exec, execAmb, h]

/-- `AMB` where it does not exist. -/
theorem exec_amb_absent {s : State} (h : s.fusionPresent = false) : exec .amb s = .refused .fusionAbsent := by
  simp [exec, execAmb, h]

/-- Settles O24: the meaning of `AMB`, its op word, the gate line, and the end of the pulse. -/
theorem ambSetsTheOverrideWhereItExists : Obligations.AmbSetsTheOverrideWhereItExists := by
  refine ⟨by decide, fun _ => exec_amb_present, fun _ => exec_amb_absent, fun s rest hf ha => ?absent,
    fun _ _ => Bool.or_eq_true_iff, fun _ _ => step_of_pulseEnd⟩
  case absent =>
    have hd : decode s.fusionPresent 0xE0 = .error .fusionAbsent := by rw [hf]; rfl
    exact step_of_illegal_word ha hd

end Sys2Proof.Machine
end

section
/-! `INIT` within its precondition (43_scheduler.md R186), and a stop from its request to `SUSP` (R197). -/

namespace Sys2Proof.Machine

section
variable {s : State}

/-- A legal record's pulse counts fit the two bits of their registers (43_scheduler.md R187). -/
theorem regsOf_extra_toNat {r : CfgRecord} (h : configOk r = true) (c : Chan) :
    ((regsOf r).extra.get c).toNat = r.extra.get c := by
  obtain ⟨_, _, _, _, hextra, _, _⟩ := (configOkIsTheListedConditions r).1 h
  simp only [regsOf, PerCh.get_map, BitVec.toNat_ofNat]
  have := hextra c
  omega

theorem exec_init_legal (ha : initAllowed s = true) (hok : configOk (offered s) = true) :
    exec .init s = .next { s with
      cfg := regsOf (offered s)
      inited := true
      sck := false
      trace := s.trace ++ [.lineWrite (offered s).clkLine false, .initResult true] } := by
  simp [exec, execInit, ha, hok, loadConfig_eq]

theorem exec_init_illegal (ha : initAllowed s = true) (hbad : configOk (offered s) = false) :
    exec .init s = .next { s with
      cfgErr := true
      trace := s.trace ++ [.raised .configurationError, .initResult false] } := by
  simp [exec, execInit, ha, hbad, takeCondition_configurationError, record]

/-- The worker at rest with nothing on the agenda performs `SUSP`. -/
theorem step_of_rest (ha : s.agenda = []) (hp : s.phase = .susp) : step s = exec .susp s := by
  rw [step_of_decode_workerWord (nextMove_nil ha) ((decode_workerWord_plain s).1 hp), popMove_nil ha]

end

/-- Settles O27: the two results of `INIT`, with the pulse counts exact because a legal record's are at most 3. -/
theorem initLoadsALegalRecordOrFails : Obligations.InitLoadsALegalRecordOrFails := by
  refine ⟨by decide, fun s hidle hinit herr => ?_⟩
  have ha : initAllowed s = true := initAllowed_iff.2 ⟨hidle, hinit, herr⟩
  exact ⟨fun hok => ⟨regsOf (offered s), exec_init_legal ha hok, rfl, rfl, regsOf_extra_toNat hok, rfl, rfl, rfl⟩,
    exec_init_illegal ha⟩

/-- Settles O32: the request stands in the way of a tick at once; the worker's step that honours it is `SUSP`. -/
theorem stopIsHonouredAtTheBoundary : Obligations.StopIsHonouredAtTheBoundary := by
  refine ⟨by decide, fun _ => rfl, fun s ha hreq hp => ?honoured,
    fun _ hreq => exec_tick_dropped (tickAccepted_eq_false_iff.2 (.inr (.inr (.inr (.inr hreq)))))⟩
  case honoured =>
    rw [step_of_rest ha hp]
    exact exec_susp_stop (by simp [stopDue, hreq, hp])

end Sys2Proof.Machine
end
